-- ==== Sys2Proof/Word.lean ====
section
/-! DEFINITION. Word types of the engine (00_scope.md R6: BYTE_WIDTH 8, WORD_WIDTH, RESULT_WIDTH and CMD_WIDTH 16,
ACC_WIDTH 32). Every value is unsigned (00_scope.md section 5). -/

namespace Sys2Proof

/-- One buffer element, `BYTE_WIDTH = 8` (R6). -/
abbrev Byte := BitVec 8

/-- A 16-bit word: a summed word, a command word, `RESULT` or `STATUS` (R6). -/
abbrev Word := BitVec 16

/-- A value of the 32-bit accumulator, `ACC_WIDTH = 32` (R6). -/
abbrev Acc := BitVec 32

end Sys2Proof
end

