-- ==== Sys2Proof/Syntax.lean ====
section
/-! DEFINITION. The commands of the engine: one constructor per row of spec/opcode_table.json (30_encoding.md R39). -/

namespace Sys2Proof

/-- A legal command. `START` and `FINISH` have no operand: their `DATA` field is ignored (R41). -/
inductive Instr where
  /-- `START`: begin a new computation (43_engine_commands.md R78). -/
  | start
  /-- `BYTE d`: append byte `d` to the current buffer (R79). -/
  | byte (d : Byte)
  /-- `FINISH`: end the computation and produce its checksum (R80). -/
  | finish
  deriving DecidableEq, Repr

end Sys2Proof
end

