-- ==== Sys2Proof/Decode.lean ====
section
/-! DEFINITION. Decoding, total on every 16-bit word (30_encoding.md R38, R40), and the encoder (R39, R41, R43). -/

namespace Sys2Proof

/-- `RSV = cmd[15:10]` (R37). -/
def rsvField (w : Word) : BitVec 6 := w.extractLsb' 10 6

/-- `OP = cmd[9:8]` (R37). -/
def opField (w : Word) : BitVec 2 := w.extractLsb' 8 2

/-- `DATA = cmd[7:0]` (R37). -/
def dataField (w : Word) : Byte := w.extractLsb' 0 8

/-- The two conditions that make a word illegal (R90). They have one and the same effect (R92); log entry 11. -/
inductive IllegalReason where
  /-- `cmd[15:10] != 0`. -/
  | rsvNotZero
  /-- `cmd[9:8] = 11`, with `RSV` zero. -/
  | opThree
  deriving DecidableEq, Repr

/-- The results of decoding a word (R40). -/
inductive Decoded where
  | command (i : Instr)
  | illegal (why : IllegalReason)
  deriving DecidableEq, Repr

/-- `decode` of R40, condition for condition. -/
def decode (w : Word) : Decoded :=
  if rsvField w ≠ 0#6 then .illegal .rsvNotZero
  else if opField w = 0b00#2 then .command .start
  else if opField w = 0b01#2 then .command (.byte (dataField w))
  else if opField w = 0b10#2 then .command .finish
  else .illegal .opThree

/-- A `CMD16` word from its fields, most significant first (R37). -/
def cmd16 (rsv : BitVec 6) (op : BitVec 2) (data : Byte) : Word := rsv ++ op ++ data

/-- The canonical encoding of a command; `DATA = 0x00` for `START` and `FINISH` (R39, R41). -/
def encode : Instr → Word
  | .start => cmd16 0 0b00 0x00
  | .byte d => cmd16 0 0b01 d
  | .finish => cmd16 0 0b10 0x00

/-- The `mask` column of R39's table, the same in every row. -/
def rowMask : Word := 0xFF00#16

/-- The `match` column of R39's table. -/
def Instr.rowMatch : Instr → Word
  | .start => 0x0000#16
  | .byte _ => 0x0100#16
  | .finish => 0x0200#16

/-- The command word whose table bits are `w`, of which the table gives `nbits`; all bits above them are 0. A command
is one 16-bit word written whole to `CMD`, so it has no byte order (R37, R38). -/
def tableWord (nbits w : Nat) : Word := BitVec.ofNat 16 (w % 2 ^ nbits)

/-- The instruction the decoder reads from a word numbered as spec/opcode_table.json numbers it. -/
def decodeTableWord (nbits w : Nat) : Option Instr :=
  match decode (tableWord nbits w) with
  | .command i => some i
  | .illegal _ => none

end Sys2Proof
end

