-- ==== Sys2Proof/Machine/Adder.lean ====
section
/-! DEFINITION. The sub-block `one's_complement_adder` (41_ones_complement_adder.md R63, R65). Combinational: it holds
no state and has no flag output. -/

namespace Sys2Proof.Machine

/-- The 33-bit sum `t := acc + zext_32(w)` (R65). -/
def adderSum (acc : Acc) (w : Word) : BitVec 33 := acc.setWidth 33 + w.setWidth 33

/-- `ADD32`: `t[31:0] + t[32]`, end-around carry into bit 0 (R65). -/
def add32 (acc : Acc) (w : Word) : Acc :=
  (adderSum acc w).extractLsb' 0 32 + ((adderSum acc w).extractLsb' 32 1).setWidth 32

/-- `ACCSUM`: words added one after another from `ACC = 0`, in buffer order (10_state.md R15). -/
def accSum (ws : List Word) : Acc := ws.foldl add32 0#32

end Sys2Proof.Machine
end

