-- ==== Sys2Proof/Machine/State.lean ====
section
/-! DEFINITION. The state of one engine instance (10_state.md R9), what a step can be given (43_engine_commands.md
R76), the reset state (70_reset_and_hazards.md R102), and the reasons a step can stop. -/

namespace Sys2Proof.Machine

/-- "One engine instance holds exactly the state elements below, and no others" (R9). -/
structure Engine where
  /-- `ACC`, hidden: the running sum of the completed words (R10). -/
  acc : Acc
  /-- `PEND`, hidden: the first byte of a word whose second byte has not arrived (R11). -/
  pend : Byte
  /-- `PEND_VALID`, hidden: `PEND` holds a byte not yet added to `ACC` (R12). -/
  pendValid : Bool
  /-- `RESULT`: the checksum the most recent `FINISH` produced (R16). -/
  result : Word
  /-- `RES_VALID`, read as `STATUS[0]` (R17, R18). -/
  resValid : Bool
  /-- `ILL`, read as `STATUS[1]` (R17, R19). -/
  ill : Bool
  deriving DecidableEq, Repr

/-- The reset values of R9 and R102. -/
def Engine.reset : Engine where
  acc := 0x00000000#32
  pend := 0x00#8
  pendValid := false
  result := 0xFFFF#16
  resValid := false
  ill := false

/-- What one step applies: "either reset or exactly one command word accepted from `CMD`" (R76). -/
inductive StepInput where
  /-- The host writes the word `w` to `CMD` (R20). -/
  | command (w : Word)
  /-- Reset, with the command word that arrived in the same step, if any (R102). -/
  | reset (discarded : Option Word)
  deriving DecidableEq, Repr

/-- An engine instance and what its host will do to it, next step first. `input` is the model's own field, not the
engine's: the engine has no queue (R76); log entry 1. -/
structure State extends Engine where
  input : List StepInput
  deriving DecidableEq, Repr

/-- The machine right after reset (R102); the host has asked for nothing yet (DESIGN CHOICE, log entry 1). -/
def State.reset : State := { Engine.reset with input := [] }

/-- No constructor: nothing makes the engine stop. "The function is total over all byte sequences" (R53, R89), and an
illegal command sets `ILL` and goes on (R90, R93). -/
inductive Fault : Type
  deriving DecidableEq, Repr

/-- The reasons a step can be refused. -/
inductive Refusal where
  /-- An instruction with no meaning yet, by its mnemonic. Raised by no arm of `exec`, so neither safe nor unsafe. -/
  | notModelled (mnemonic : String)
  deriving DecidableEq, Repr

end Sys2Proof.Machine
end

