-- ==== Sys2Proof/Machine/Flags.lean ====
section
/-! DEFINITION. The two flags and the `STATUS` word assembled from them (10_state.md R17, R18, R19). -/

namespace Sys2Proof.Machine

/-- Write `RES_VALID` (R18). -/
def setResValid (v : Bool) (s : State) : State := { s with resValid := v }

/-- Write `ILL` (R19). -/
def setIll (v : Bool) (s : State) : State := { s with ill := v }

/-- `STATUS = {14'b0, ILL, RES_VALID}` (R17). -/
def statusWord (ill resValid : Bool) : Word := 0#14 ++ BitVec.ofBool ill ++ BitVec.ofBool resValid

end Sys2Proof.Machine
end

