-- ==== Sys2Proof/Machine/FoldUnit.lean ====
section
/-! DEFINITION. The sub-block `carry_fold_unit` (42_carry_fold_unit.md R70, R71, R75). Combinational: it holds no state
and has no flag output. -/

namespace Sys2Proof.Machine

/-- Stage 1: `y := x[15:0] + x[31:16]`, 17 bits (R71). -/
def foldStage1 (x : Acc) : BitVec 17 :=
  (x.extractLsb' 0 16).setWidth 17 + (x.extractLsb' 16 16).setWidth 17

/-- Stage 2: `z := y[15:0] + y[16]`, 16 bits (R71). -/
def foldStage2 (y : BitVec 17) : Word :=
  y.extractLsb' 0 16 + (y.extractLsb' 16 1).setWidth 16

/-- `fold_out = FOLD2(x_in)` (R71). -/
def fold2 (x : Acc) : Word := foldStage2 (foldStage1 x)

/-- `res_out = ~16 FOLD2(x_in)` (R75). -/
def resOut (x : Acc) : Word := ~~~ fold2 x

end Sys2Proof.Machine
end

