-- ==== Sys2Proof/Machine/Operands.lean ====
section
/-! DEFINITION. Word formation: the one operand form the engine assembles (41_ones_complement_adder.md R64). -/

namespace Sys2Proof.Machine

/-- `{hi, lo}`: the big-endian word of two bytes, the byte that arrived first high (20_memory.md R25, R64). -/
def pairWord (hi lo : Byte) : Word := hi ++ lo

/-- `{b, 0x00}`: the pad word of a trailing odd byte, the byte high and the zero low (R26, R64). -/
def padWord (b : Byte) : Word := pairWord b 0x00#8

end Sys2Proof.Machine
end

