-- ==== Sys2Proof/Machine/Ops.lean ====
section
/-! DEFINITION. The operations the commands share: on the hidden state, the exceptional event `IllegalCommand`, reset,
the host reads, and the host's input. The engine has no memory (20_memory.md R23), so there is no memory operation. -/

namespace Sys2Proof.Machine

/-- Return `ACC`, `PEND` and `PEND_VALID` to their reset values, as `START` and `FINISH` do (R22, R78, R80). -/
def clearHidden (s : State) : State := { s with acc := 0#32, pend := 0x00#8, pendValid := false }

/-- Append a byte to the current buffer: at an even index it waits in `PEND`, at an odd index it completes the word
`{PEND, d}` (R79). -/
def appendByte (d : Byte) (s : State) : State :=
  if s.pendValid then
    { s with acc := add32 s.acc (pairWord s.pend d), pend := 0x00#8, pendValid := false }
  else { s with pend := d, pendValid := true }

/-- `a` of R80: the value `FINISH` folds, with the pad word added when a byte is pending. -/
def foldInput (s : State) : Acc :=
  if s.pendValid then add32 s.acc (padWord s.pend) else s.acc

/-- Write `RESULT`; only `FINISH` does (R16). -/
def setResult (r : Word) (s : State) : State := { s with result := r }

/-- `raise IllegalCommand(cmd)` "means exactly `ILL <- 1` and no other state change" (60_exceptions.md R90). It saves
nothing, changes no mode and transfers no control, and there is no return from it (R93, R94). -/
def raiseIllegalCommand (s : State) : State := setIll true s

/-- Reset writes every state element to its reset value (R102). -/
def applyReset (s : State) : State := { s with toEngine := Engine.reset }

/-- `RD RESULT`: a host read, not a step (R82). -/
def readResult (s : State) : Word := s.result

/-- `RD STATUS`: a host read, not a step; it clears nothing (R83). -/
def readStatus (s : State) : Word := statusWord s.ill s.resValid

/-- Put `e` before everything the host will do next. -/
def State.offer (e : StepInput) (s : State) : State := { s with input := e :: s.input }

/-- Drop the step input that is being applied. -/
def State.withInput (rest : List StepInput) (s : State) : State := { s with input := rest }

end Sys2Proof.Machine
end

