-- ==== Sys2Proof/Machine/Commands.lean ====
section
/-! DEFINITION. The meanings of the three commands (43_engine_commands.md R77 to R80). Every right-hand side reads the
state before the command (00_scope.md R8). -/

namespace Sys2Proof.Machine

/-- `START` (R78): hidden state, `RES_VALID` and `ILL` cleared; `RESULT` unchanged. -/
def execStart (s : State) : Host.Outcome State Fault Refusal :=
  .next (setIll false (setResValid false (clearHidden s)))

/-- `BYTE d` (R79): `d` appended, `RES_VALID` cleared; `RESULT` and `ILL` unchanged. -/
def execByte (d : Byte) (s : State) : Host.Outcome State Fault Refusal :=
  .next (setResValid false (appendByte d s))

/-- `FINISH` (R80): `RESULT` from the folded sum, `RES_VALID` set, hidden state cleared; `ILL` unchanged. -/
def execFinish (s : State) : Host.Outcome State Fault Refusal :=
  .next (setResValid true (clearHidden (setResult (resOut (foldInput s)) s)))

end Sys2Proof.Machine
end

