-- ==== Sys2Proof/Machine/Dispatch.lean ====
section
/-! DEFINITION. One arm per command. -/

namespace Sys2Proof.Machine

def exec (i : Instr) (s : State) : Host.Outcome State Fault Refusal :=
  match i with
  | .start => Sys2Proof.Machine.execStart s
  | .byte d => Sys2Proof.Machine.execByte d s
  | .finish => Sys2Proof.Machine.execFinish s

end Sys2Proof.Machine
end

