-- ==== Sys2Proof/Machine/CmdPort.lean ====
section
/-! DEFINITION. The `CMD` port: one word is decoded and applied as one step (10_state.md R20, 43_engine_commands.md
R76, R77). -/

namespace Sys2Proof.Machine

/-- A word accepted from `CMD`: the command it decodes to, or `IllegalCommand` (R77, R81). The word is not kept (R20). -/
def acceptCommand (w : Word) (s : State) : Host.Outcome State Fault Refusal :=
  match decode w with
  | .command i => exec i s
  | .illegal _ => .next (raiseIllegalCommand s)

/-- What one step applies (R76). Reset dominates: a command in the same step is discarded unapplied (R92, R102). -/
def applyInput (e : StepInput) (s : State) : Host.Outcome State Fault Refusal :=
  match e with
  | .command w => acceptCommand w s
  | .reset _ => .next (applyReset s)

end Sys2Proof.Machine
end

