-- ==== Sys2Proof/Machine/Step.lean ====
section
/-! DEFINITION. One step of the engine (43_engine_commands.md R76). -/

namespace Sys2Proof.Machine

/-- Apply the next thing the host does. With nothing to apply no step happens and the engine "holds all its state"
(R76, R101): the state is left as it is (log entry 2). -/
def step (s : State) : Host.Outcome State Fault Refusal :=
  match s.input with
  | [] => .next s
  | e :: rest => applyInput e (s.withInput rest)

/-- The host writes this command word next; everything else is as it was (log entry 1). -/
def State.withFetchWord (s : State) (nbits w : Nat) : State := s.offer (.command (tableWord nbits w))

end Sys2Proof.Machine
end

