-- ==== Sys2Proof/Config.lean ====
section
/-! DEFINITION. What a platform fixes and the spec leaves OPEN (00_scope.md R6): `N_ENGINES` and `PLATFORM_MAP`. Both
rest on constants with no body, so a statement about them holds for every platform. No rule of one engine instance
depends on either (R6, R32). The other parameters of R6 are fixed by the spec and stand where they are used. -/

namespace Sys2Proof

/-- The three ports of an engine instance (10_state.md R16, R17, R20; 60_exceptions.md R98). -/
inductive Port where
  | cmd
  | result
  | status
  deriving DecidableEq, Repr

/-- How many instances a platform has beyond the first. Free value, log entry 7. -/
opaque Config.furtherEngines : Nat

/-- `N_ENGINES`, at least 1 (R6, R99). -/
def Config.nEngines : Nat := Config.furtherEngines + 1

/-- The two directions of a host access (20_memory.md R31). -/
inductive Access where
  | write
  | read
  deriving DecidableEq, Repr

/-- `PLATFORM_MAP`: which instance's which port a host address reaches, if any, for writes and for reads apart, so that
`CMD` may share an address with `RESULT` or `STATUS` (R32). Free value. DESIGN CHOICE, log entry 8: the spec leaves the
placement OPEN, and this form allows one fixed port at most for each address and direction. -/
opaque Config.platformMap : Access → Nat → Option (Nat × Port)

end Sys2Proof
end

