-- ==== Sys2Proof/Machine/HostPort.lean ====
section
/-! DEFINITION. What a host does to one instance, reads included, in one total order (20_memory.md R31, R33). -/

namespace Sys2Proof.Machine

/-- The host-visible accesses of R31, and reset. -/
inductive HostAction where
  /-- Write a word to `CMD`. -/
  | write (w : Word)
  /-- Apply reset, with the command word that arrives in the same step, if any. -/
  | reset (discarded : Option Word)
  | rdResult
  | rdStatus
  deriving DecidableEq, Repr

/-- The step an action is; a host read is none (R76, R82, R83). -/
def HostAction.stepInput : HostAction → Option StepInput
  | .write w => some (.command w)
  | .reset c => some (.reset c)
  | .rdResult => none
  | .rdStatus => none

/-- The value a read action returns: the state after every step accepted before it (R33). -/
def HostAction.readValue (s : State) : HostAction → Option Word
  | .write _ => none
  | .reset _ => none
  | .rdResult => some (readResult s)
  | .rdStatus => some (readStatus s)

/-- Go on with `f` from an outcome's state; a stop stays a stop. -/
def andThen {α β : Type} (o : Host.Outcome α Fault Refusal) (f : α → Host.Outcome β Fault Refusal) :
    Host.Outcome β Fault Refusal :=
  match o with
  | .next a => f a
  | .fault r => .fault r
  | .refused r => .refused r

/-- `k` steps, each applying the next thing the host does (R76). -/
def runSteps : Nat → State → Host.Outcome State Fault Refusal
  | 0, s => .next s
  | k + 1, s => andThen (step s) (runSteps k)

/-- The step of an action, offered to the engine before anything else the host will do. -/
def hostStep (a : HostAction) (s : State) : Host.Outcome State Fault Refusal :=
  match a.stepInput with
  | some e => step (s.offer e)
  | none => .next s

/-- The actions of a host in order: the state after them and the values its reads returned, in order (R33). -/
def hostRun : List HostAction → State → Host.Outcome (State × List Word) Fault Refusal
  | [], s => .next (s, [])
  | a :: rest, s =>
    andThen (hostStep a s) fun t =>
      andThen (hostRun rest t) fun u => .next (u.1, (a.readValue s).toList ++ u.2)

end Sys2Proof.Machine
end

