-- ==== Sys2Proof/Machine/Assembly.lean ====
section
/-! DEFINITION. The lines of the spec's assembly notation as data (30_encoding.md R43, R44): the source form from
which command words are assembled. Immediates are the numbers as written, before any range check. -/

namespace Sys2Proof

/-- One assembly line: the core forms of R43, then the pseudo-instructions and host-read lines of R44. -/
inductive AsmLine where
  | start
  | byte (imm : Nat)
  | finish
  /-- `.cmd imm16`: a raw word, to write illegal encodings on purpose. -/
  | cmd (imm : Nat)
  | bytes (imms : List Nat)
  | compute (imms : List Nat)
  | rdResult
  | rdStatus
  deriving DecidableEq, Repr

end Sys2Proof
end

