-- ==== Sys2Proof/WellFormed.lean ====
section
/-! DEFINITION. Well-formedness. A command has no ill-formed term: its only operand is a byte and "every byte value
is legal" (R41, R79). The range checks the spec has are those of the assembler (R43). -/

namespace Sys2Proof

/-- Every command is well formed: `START` and `FINISH` have no operand and every value of `BYTE`'s is legal (R79). -/
def Instr.wellFormed : Instr → Bool
  | .start => true
  | .byte _ => true
  | .finish => true

/-- "`imm8`: an integer 0..255 ... out of range is an assembly error" (R43). -/
def AsmLine.byteInRange (imm : Nat) : Bool := decide (imm < 256)

/-- `imm16` of `.cmd` is a raw 16-bit word (R43). -/
def AsmLine.wordInRange (imm : Nat) : Bool := decide (imm < 65536)

/-- The assembler accepts a line exactly when its immediates are in range (R43, R44). -/
def AsmLine.wellFormed : AsmLine → Bool
  | .start => true
  | .byte imm => byteInRange imm
  | .finish => true
  | .cmd imm => wordInRange imm
  | .bytes imms => imms.all byteInRange
  | .compute imms => imms.all byteInRange
  | .rdResult => true
  | .rdStatus => true

end Sys2Proof
end

