-- ==== Sys2Proof/Machine/Assembler.lean ====
section
/-! DEFINITION. The assembler and disassembler of command streams (30_encoding.md R43, R44): from a line to the host
actions it stands for and from a word back to a line, then the same on text. Texts are lists of characters; the
lexical details the spec does not give are log entry 9. -/

namespace Sys2Proof.Machine

/-- The write of one command's canonical encoding. -/
def writeCommand (i : Instr) : HostAction := .write (encode i)

/-- `BYTES b0, ..., b(n-1)`: one `BYTE` each; nothing for `n = 0` (R44). -/
def bytesActions (imms : List Nat) : List HostAction :=
  imms.map fun imm => writeCommand (.byte (BitVec.ofNat 8 imm))

/-- The expansion of a line whose immediates are in range (R43, R44). -/
def expandLine : AsmLine → List HostAction
  | .start => [writeCommand .start]
  | .byte imm => bytesActions [imm]
  | .finish => [writeCommand .finish]
  | .cmd imm => [.write (BitVec.ofNat 16 imm)]
  | .bytes imms => bytesActions imms
  | .compute imms => writeCommand .start :: (bytesActions imms ++ [writeCommand .finish])
  | .rdResult => [.rdResult]
  | .rdStatus => [.rdStatus]

/-- Assemble one line; none is an assembly error (R43). -/
def assemble (l : AsmLine) : Option (List HostAction) :=
  if l.wellFormed then some (expandLine l) else none

/-- Disassemble one word: `START` and `FINISH` whatever their `DATA`, `.cmd` for every illegal word (R43). -/
def disassemble (w : Word) : AsmLine :=
  match decode w with
  | .command .start => .start
  | .command (.byte d) => .byte d.toNat
  | .command .finish => .finish
  | .illegal _ => .cmd w.toNat

/-- The words of `COMPUTE b0, ..., b(n-1)`, in order (R44). -/
def computeWords (B : List Byte) : List Word :=
  encode .start :: (B.map fun b => encode (.byte b)) ++ [encode .finish]

/-! Text. -/

/-- A letter in upper case: "mnemonics are case-insensitive" (R43). -/
def upperChar (c : Char) : Char :=
  if 97 ≤ c.toNat ∧ c.toNat ≤ 122 then Char.ofNat (c.toNat - 32) else c

def isBlank (c : Char) : Bool := c = ' ' || c = '\t' || c = '\r'

/-- The text before `;`, which starts a comment (R43). -/
def stripComment (cs : List Char) : List Char := cs.takeWhile (· ≠ ';')

/-- Drop blanks at both ends. -/
def trim (cs : List Char) : List Char := ((cs.dropWhile isBlank).reverse.dropWhile isBlank).reverse

/-- The value of a digit in the given base. -/
def digitValue (base : Nat) (c : Char) : Option Nat :=
  let n := (upperChar c).toNat
  let v := if 48 ≤ n ∧ n ≤ 57 then n - 48 else if 65 ≤ n ∧ n ≤ 70 then n - 55 else base
  if v < base then some v else none

/-- A number's digits, most significant first, after the value `acc`. -/
def digitsValue (base : Nat) : Nat → List Char → Option Nat
  | acc, [] => some acc
  | acc, c :: cs =>
    match digitValue base c with
    | some v => digitsValue base (acc * base + v) cs
    | none => none

/-- "written in decimal or as `0xHH`" (R43). -/
def parseNumber : List Char → Option Nat
  | [] => none
  | '0' :: 'x' :: c :: cs => digitsValue 16 0 (c :: cs)
  | c :: cs => digitsValue 10 0 (c :: cs)

/-- The comma-separated numbers of an operand list; the empty text is the empty list (R44). -/
def parseNumbers (cs : List Char) : Option (List Nat) :=
  if trim cs = [] then some []
  else ((cs.splitOn ',').map fun field => parseNumber (trim field)).mapM id

/-- A line from its mnemonic in upper case and its operand text (R43, R44). -/
def parseForm (mnemonic operands : List Char) : Option AsmLine :=
  if mnemonic = ['S', 'T', 'A', 'R', 'T'] ∧ operands = [] then some .start
  else if mnemonic = ['F', 'I', 'N', 'I', 'S', 'H'] ∧ operands = [] then some .finish
  else if mnemonic = ['B', 'Y', 'T', 'E'] then (parseNumber operands).map .byte
  else if mnemonic = ['.', 'C', 'M', 'D'] then (parseNumber operands).map .cmd
  else if mnemonic = ['B', 'Y', 'T', 'E', 'S'] then (parseNumbers operands).map .bytes
  else if mnemonic = ['C', 'O', 'M', 'P', 'U', 'T', 'E'] then (parseNumbers operands).map .compute
  else if mnemonic = ['R', 'D'] ∧ operands.map upperChar = ['R', 'E', 'S', 'U', 'L', 'T'] then some .rdResult
  else if mnemonic = ['R', 'D'] ∧ operands.map upperChar = ['S', 'T', 'A', 'T', 'U', 'S'] then some .rdStatus
  else none

/-- One line of text: no actions for an empty or comment line, else the assembled command; none is an error. -/
def assembleText (cs : List Char) : Option (List HostAction) :=
  let body := trim (stripComment cs)
  if body = [] then some []
  else
    match parseForm ((body.takeWhile (!isBlank ·)).map upperChar) (trim (body.dropWhile (!isBlank ·))) with
    | some l => assemble l
    | none => none

/-- A program: "one command per line" (R43). -/
def assembleProgram (cs : List Char) : Option (List HostAction) :=
  (((cs.splitOn '\n').map assembleText).mapM id).map List.flatten

/-- A digit as an upper-case hexadecimal character. -/
def hexChar (v : Nat) : Char := Char.ofNat (if v < 10 then 48 + v else 55 + v)

/-- `n` as `digits` hexadecimal characters. -/
def hexText : Nat → Nat → List Char
  | 0, _ => []
  | digits + 1, n => hexText digits (n / 16) ++ [hexChar (n % 16)]

/-- The text the disassembler prints for a word (R43). -/
def disassembleText (w : Word) : List Char :=
  match decode w with
  | .command .start => ['S', 'T', 'A', 'R', 'T']
  | .command (.byte d) => ['B', 'Y', 'T', 'E', ' ', '0', 'x'] ++ hexText 2 d.toNat
  | .command .finish => ['F', 'I', 'N', 'I', 'S', 'H']
  | .illegal _ => ['.', 'c', 'm', 'd', ' ', '0', 'x'] ++ hexText 4 w.toNat

end Sys2Proof.Machine
end

