-- ==== Sys2Proof/Machine/Platform.lean ====
section
/-! DEFINITION. A platform of independent instances (10_state.md R9, 20_memory.md R32, R34, 60_exceptions.md R99). -/

namespace Sys2Proof.Machine

/-- `N_ENGINES` instances, each with its own full state; they share nothing (R9, R99). -/
structure Platform where
  engines : List State
  deriving DecidableEq, Repr

/-- The platform has `N_ENGINES` instances (R6). -/
abbrev Platform.wf (p : Platform) : Prop := p.engines.length = Config.nEngines

/-- "Every instance leaves reset in the same state" (R99). -/
def Platform.reset : Platform := ⟨List.replicate Config.nEngines State.reset⟩

/-- A host acts on instance `k`. None if there is no instance `k`. An instance has no identifier of its own: `k` is
only where the platform places it (R99). -/
def Platform.act (k : Nat) (a : HostAction) (p : Platform) : Option Platform :=
  match p.engines[k]? with
  | none => none
  | some s =>
    match hostStep a s with
    | .next t => some ⟨p.engines.set k t⟩
    | .fault _ => none
    | .refused _ => none

/-- A host writes a word at an address: a command of the instance whose `CMD` port the platform placed there. `CMD` is
the only port with a write path (R16, R17, R31); there is no other write access (log entry 8). -/
def Platform.busWrite (a : Nat) (w : Word) (p : Platform) : Option Platform :=
  match Config.platformMap .write a with
  | some (k, .cmd) => p.act k (.write w)
  | some (_, .result) => none
  | some (_, .status) => none
  | none => none

/-- A host reads a word at an address: `RESULT` or `STATUS` of the instance placed there. "Nothing reads `CMD` back"
(R20; log entry 8). -/
def Platform.busRead (a : Nat) (p : Platform) : Option Word :=
  match Config.platformMap .read a with
  | some (k, .result) => p.engines[k]?.map readResult
  | some (k, .status) => p.engines[k]?.map readStatus
  | some (_, .cmd) => none
  | none => none

end Sys2Proof.Machine
end

