-- ==== Sys2Proof/Machine/Checksum.lean ====
section
/-! DEFINITION. The reference function `compute` (40_checksum_function.md R45 to R52), on exact naturals. It is
normative: the engine must give exactly this function (00_scope.md R3). -/

namespace Sys2Proof.Machine

/-- Step 2: the full words of a buffer, in order, most significant byte first (R47). -/
def fullWords : List Byte → List Word
  | [] => []
  | [_] => []
  | hi :: lo :: rest => pairWord hi lo :: fullWords rest

/-- The trailing byte of an odd-length buffer (R48): the explicit remainder of R110. -/
def trailingByte : List Byte → Option Byte
  | [] => none
  | [b] => some b
  | _ :: _ :: rest => trailingByte rest

/-- Step 3: the pad word's contribution `p`; 0 when the length is even (R48). -/
def padValue (B : List Byte) : Nat :=
  match trailingByte B with
  | none => 0
  | some b => b.toNat * 256

/-- The exact word sum `S(B) = w_0 + ... + p` (R49). -/
def wordSum (B : List Byte) : Nat := ((fullWords B).map BitVec.toNat).sum + padValue B

/-- One pass of the fold loop (R50). -/
def foldPass (x : Nat) : Nat := (x &&& 0xFFFF) + (x >>> 16)

/-- The loop of R50, at most `fuel` passes. -/
def foldLoop : Nat → Nat → Nat
  | 0, x => x
  | fuel + 1, x => if x > 0xFFFF then foldLoop fuel (foldPass x) else x

/-- Step 4, `FOLD(x)`: passes until the value fits 16 bits (R50). Each pass makes `x` smaller, so `x` passes are
enough: `fold_eq` in Laws/Arithmetic.lean proves that this is the loop, with no bound. -/
def fold (x : Nat) : Nat := foldLoop x x

/-- `compute(B)` (R52). -/
def compute : List Byte → Word
  | [] => 0xFFFF#16
  | b :: bs => BitVec.ofNat 16 (0xFFFF - fold (wordSum (b :: bs)))

end Sys2Proof.Machine
end

