-- ==== Sys2Proof/Safety.lean ====
section
/-! DEFINITION. The terms statements about runs use: the current buffer (10_state.md R15), the engine as the source's
function sees it (43_engine_commands.md R84, R85), and when a host may use `RESULT` (70_reset_and_hazards.md R107,
R108). -/

namespace Sys2Proof.Machine

/-- What one step does to the current buffer `Bc`: reset, `START` and `FINISH` empty it, `BYTE` extends it, an illegal
word leaves it (R15). -/
def bufferAfter (B : List Byte) : StepInput → List Byte
  | .reset _ => []
  | .command w =>
    match decode w with
    | .command .start => []
    | .command (.byte d) => B ++ [d]
    | .command .finish => []
    | .illegal _ => B

/-- The hidden state is the function of the current buffer that R15 gives. -/
structure HidesBuffer (B : List Byte) (s : State) : Prop where
  acc : s.acc = accSum (fullWords B)
  pend : s.pend = (trailingByte B).getD 0x00#8
  pendValid : s.pendValid = decide (B.length % 2 = 1)

/-- The hidden state is that of an empty call: as after reset, `START` or `FINISH` (R22). -/
def HiddenIsReset (s : State) : Prop := s.acc = 0#32 ∧ s.pend = 0x00#8 ∧ s.pendValid = false

/-- `PEND` is `0x00` whenever `PEND_VALID` is 0 (R13). -/
def PendCanonical (s : State) : Prop := s.pendValid = false → s.pend = 0x00#8

/-- The engine without its datapath: a list of bytes in place of `ACC`, `PEND` and `PEND_VALID`, and the source's
function in place of the arithmetic. The other three elements are those of R9. -/
structure Abstract where
  buffer : List Byte
  result : Word
  resValid : Bool
  ill : Bool
  deriving DecidableEq, Repr

/-- The abstract machine right after reset (R102, R103). -/
def Abstract.reset : Abstract := { buffer := [], result := compute [], resValid := false, ill := false }

/-- What one step does to the abstract machine (R15, R16, R18, R19, R85). -/
def Abstract.apply (a : Abstract) : StepInput → Abstract
  | .reset _ => Abstract.reset
  | .command w =>
    match decode w with
    | .command .start => { a with buffer := [], resValid := false, ill := false }
    | .command (.byte d) => { a with buffer := a.buffer ++ [d], resValid := false }
    | .command .finish => { a with buffer := [], result := compute a.buffer, resValid := true }
    | .illegal _ => { a with ill := true }

/-- The engine state `s` holds the abstract state `a`. -/
def Represents (a : Abstract) (s : State) : Prop :=
  HidesBuffer a.buffer s ∧ s.result = a.result ∧ s.resValid = a.resValid ∧ s.ill = a.ill

/-- The bytes a sequence of commands delivers, illegal words delivering none (R27, R81). -/
def deliveredBytes : List Word → List Byte
  | [] => []
  | w :: ws =>
    match decode w with
    | .command (.byte d) => d :: deliveredBytes ws
    | .command .start => deliveredBytes ws
    | .command .finish => deliveredBytes ws
    | .illegal _ => deliveredBytes ws

/-- The word does not decode to a command (R42). -/
def isIllegal (w : Word) : Bool :=
  match decode w with
  | .command _ => false
  | .illegal _ => true

/-- The word is a `BYTE` or illegal: it neither opens nor closes a call (R84). -/
def insideCall (w : Word) : Bool :=
  match decode w with
  | .command (.byte _) => true
  | .command .start => false
  | .command .finish => false
  | .illegal _ => true

/-- The checksum a host may use: `RESULT` belongs to a finished call and no command of it was lost (R107, R108). -/
def usableResult (s : State) : Option Word := if s.resValid && !s.ill then some s.result else none

end Sys2Proof.Machine
end

