-- ==== Sys2Proof/Certificates/Slice0/Obligations.lean ====
section
/-! DEFINITION. The statements about the engine, from the spec's numbered rules. Arithmetic is on naturals, as the
rules write it, so that no statement repeats the bit-level definitions it is about. -/

open Sys2Proof Sys2Proof.Machine

/-! ## Encoding -/

/-- R39: a word is a given command exactly when `w & mask = match`; `0x0300`-`0x03FF` and `0x0400`-`0xFFFF` are illegal. -/
def Obligations.RowsOfTheOpcodeMap : Prop :=
  ∀ w : Word,
    (w &&& 0xFF00#16 = 0x0000#16 ↔ decode w = .command .start) ∧
    (w &&& 0xFF00#16 = 0x0000#16 ↔ w.toNat ≤ 0x00FF) ∧
    (w &&& 0xFF00#16 = 0x0100#16 ↔ ∃ d, decode w = .command (.byte d)) ∧
    (w &&& 0xFF00#16 = 0x0100#16 ↔ 0x0100 ≤ w.toNat ∧ w.toNat ≤ 0x01FF) ∧
    (w &&& 0xFF00#16 = 0x0200#16 ↔ decode w = .command .finish) ∧
    (w &&& 0xFF00#16 = 0x0200#16 ↔ 0x0200 ≤ w.toNat ∧ w.toNat ≤ 0x02FF) ∧
    (w &&& 0xFF00#16 = 0x0300#16 ↔ 0x0300 ≤ w.toNat ∧ w.toNat ≤ 0x03FF) ∧
    (isIllegal w = true ↔ w &&& 0xFF00#16 = 0x0300#16 ∨ 0x0400 ≤ w.toNat)

/-- R40: `decode` case by case on `cmd[15:10]` and `cmd[9:8]`, and the number of words of each result. -/
def Obligations.DecodeIsTotalWithCounts : Prop :=
  (∀ w : Word,
    (w.toNat / 2 ^ 10 ≠ 0 → isIllegal w = true) ∧
    (w.toNat / 2 ^ 10 = 0 → w.toNat / 2 ^ 8 % 4 = 0 → decode w = .command .start) ∧
    (w.toNat / 2 ^ 10 = 0 → w.toNat / 2 ^ 8 % 4 = 1 →
      decode w = .command (.byte (BitVec.ofNat 8 (w.toNat % 2 ^ 8)))) ∧
    (w.toNat / 2 ^ 10 = 0 → w.toNat / 2 ^ 8 % 4 = 2 → decode w = .command .finish) ∧
    (w.toNat / 2 ^ 10 = 0 → w.toNat / 2 ^ 8 % 4 = 3 → isIllegal w = true)) ∧
  ((Finset.range 65536).filter fun n => decode (BitVec.ofNat 16 n) = .command .start).card = 256 ∧
  ((Finset.range 65536).filter fun n => ∃ d, decode (BitVec.ofNat 16 n) = .command (.byte d)).card = 256 ∧
  ((Finset.range 65536).filter fun n => decode (BitVec.ofNat 16 n) = .command .finish).card = 256 ∧
  ((Finset.range 65536).filter fun n => isIllegal (BitVec.ofNat 16 n) = true).card = 64768

/-- Decoding the encoding of a well-formed command gives it back, whatever its operand. -/
def Obligations.DecodeEncodeRoundTrip : Prop :=
  ∀ i : Instr, i.wellFormed = true → decode (encode i) = .command i

/-- The encoder gives a word back up to the ignored `DATA` field of `START` and `FINISH`, which it writes as zero. -/
def Obligations.EncodeDecodeIsCanonical : Prop :=
  ∀ (w : Word) (i : Instr), decode w = .command i →
    (i = .start → encode i = w &&& 0xFF00#16) ∧
    (∀ d, i = .byte d → encode i = w) ∧
    (i = .finish → encode i = w &&& 0xFF00#16)

/-- "`START` and `FINISH` ignore `DATA`: any value gives the same effect" (R41). -/
def Obligations.StartAndFinishIgnoreData : Prop :=
  ∀ (d : Byte) (s : State),
    acceptCommand (cmd16 0 0b00 d) s = exec .start s ∧ acceptCommand (cmd16 0 0b10 d) s = exec .finish s

/-- The worked encodings of 30_encoding.md section 6. -/
def Obligations.WorkedEncodingsDecode : Prop :=
  decode 0b0000000000000000#16 = .command .start ∧
  decode 0b0000000111110010#16 = .command (.byte 0xF2) ∧
  decode 0b0000000100000000#16 = .command (.byte 0) ∧
  decode 0b0000001000000000#16 = .command .finish ∧
  decode 0b0000001010101011#16 = .command .finish ∧
  isIllegal 0b0000001100000000#16 = true ∧
  isIllegal 0b0000010100000000#16 = true

/-- R43: the disassembled form of a word assembles to one word with the same meaning: the word itself for `BYTE` and
for every illegal word, `DATA = 0x00` for `START` and `FINISH`. -/
def Obligations.AssemblerUndoesDisassembler : Prop :=
  ∀ w : Word, ∃ v : Word, assemble (disassemble w) = some [.write v] ∧ decode v = decode w ∧
    (isIllegal w = true → v = w) ∧
    (∀ d, decode w = .command (.byte d) → v = w) ∧
    (decode w = .command .start ∨ decode w = .command .finish → v = w &&& 0xFF00#16)

/-- R43, R44: `COMPUTE` expands to `START`, the bytes in order, `FINISH`; an immediate over 255 is an assembly error. -/
def Obligations.ComputeLineExpands : Prop :=
  (∀ B : List Byte, assemble (.compute (B.map BitVec.toNat)) = some ((computeWords B).map .write)) ∧
  (∀ imms : List Nat, assemble (.compute imms) = none ↔ ∃ n ∈ imms, 255 < n)

/-! ## Steps and commands -/

/-- A word at the port that decodes to a command runs that command, once, with everything after it still to come. -/
def Obligations.StepRunsTheDecodedCommand : Prop :=
  ∀ (s : State) (w : Word) (rest : List StepInput) (i : Instr),
    s.input = .command w :: rest → decode w = .command i → step s = exec i { s with input := rest }

/-- With neither reset nor a command no step happens and all state is held (R76, R101; that this is a step to the same
state is the model's form, log entry 2). -/
def Obligations.NoInputHoldsAllState : Prop := ∀ s : State, s.input = [] → step s = .next s

/-- R77: the command step as one function of the state before it, in natural arithmetic. -/
def Obligations.CommandStepAsOneFunction : Prop :=
  ∀ (s : State) (w : Word) (rest : List StepInput), s.input = .command w :: rest →
    ∃ t : State, step s = .next t ∧ t.input = rest ∧
      (w.toNat < 0x100 →
        t.toEngine = { acc := 0, pend := 0, pendValid := false, result := s.result, resValid := false, ill := false }) ∧
      (0x100 ≤ w.toNat → w.toNat < 0x200 → s.pendValid = false →
        t.toEngine = { s.toEngine with
          pend := BitVec.ofNat 8 (w.toNat % 0x100), pendValid := true, resValid := false }) ∧
      (0x100 ≤ w.toNat → w.toNat < 0x200 → s.pendValid = true →
        t.acc.toNat = (s.acc.toNat + (s.pend.toNat * 0x100 + w.toNat % 0x100)) % 2 ^ 32
          + (s.acc.toNat + (s.pend.toNat * 0x100 + w.toNat % 0x100)) / 2 ^ 32 ∧
        t.toEngine = { s.toEngine with acc := t.acc, pend := 0, pendValid := false, resValid := false }) ∧
      (0x200 ≤ w.toNat → w.toNat < 0x300 →
        (∀ a y : Nat,
          a = (if s.pendValid = true then
                (s.acc.toNat + s.pend.toNat * 0x100) % 2 ^ 32 + (s.acc.toNat + s.pend.toNat * 0x100) / 2 ^ 32
              else s.acc.toNat) →
          y = a % 2 ^ 16 + a / 2 ^ 16 →
          t.result.toNat = 0xFFFF - (y % 2 ^ 16 + y / 2 ^ 16)) ∧
        t.toEngine = { s.toEngine with
          acc := 0, pend := 0, pendValid := false, result := t.result, resValid := true }) ∧
      (0x300 ≤ w.toNat → t.toEngine = { s.toEngine with ill := true })

/-- R78: `START` completes from every state, from any word of its row; it keeps `RESULT`; twice is as once; with no
computation in progress it changes only the two flags. -/
def Obligations.StartOpensANewComputation : Prop :=
  (∀ w : Word, w &&& 0xFF00#16 = 0x0000#16 → decode w = .command .start) ∧
  (∀ s : State, exec .start s =
    .next { s with acc := 0, pend := 0, pendValid := false, resValid := false, ill := false }) ∧
  (∀ s t : State, exec .start s = .next t → exec .start t = .next t) ∧
  (∀ s : State, HiddenIsReset s → exec .start s = .next { s with resValid := false, ill := false }) ∧
  (∀ s t u : State, exec .finish s = .next t → exec .start t = .next u → u.result = t.result ∧ u.resValid = false)

/-- R79: `BYTE d` completes from every state: at an even index `d` waits in `PEND`, at an odd index the big-endian word
is added with end-around carry, which occurs only after more than 65537 words. -/
def Obligations.ByteAppendsToTheBuffer : Prop :=
  (∀ w : Word, w &&& 0xFF00#16 = 0x0100#16 → decode w = .command (.byte (BitVec.ofNat 8 w.toNat))) ∧
  (∀ (d : Byte) (s : State), s.pendValid = false →
    exec (.byte d) s = .next { s with pend := d, pendValid := true, resValid := false }) ∧
  (∀ (d : Byte) (s : State) (x : Nat), s.pendValid = true →
    x = s.acc.toNat + (s.pend.toNat * 256 + d.toNat) →
    exec (.byte d) s = .next { s with
      acc := BitVec.ofNat 32 (x % 2 ^ 32 + x / 2 ^ 32), pend := 0, pendValid := false, resValid := false }) ∧
  (∀ (d : Byte) (s t u : State), exec .finish s = .next t → exec (.byte d) t = .next u →
    u.pend = d ∧ u.pendValid = true ∧ u.acc = 0) ∧
  (∀ (B : List Byte) (d : Byte) (s : State), HidesBuffer B s → s.pendValid = true → (fullWords B).length < 65537 →
    s.acc.toNat + (s.pend.toNat * 256 + d.toNat) < 2 ^ 32) ∧
  (∀ s : State, s.acc = 0x00000001 → s.pend = 0xF2 → s.pendValid = true →
    exec (.byte 0x03) s = .next { s with acc := 0x0000F204, pend := 0x00, pendValid := false, resValid := false }) ∧
  compute [0x00] = compute []

/-- R80: `FINISH` completes from every state: the pad word is added when a byte is pending, the sum is folded by the
loop of R50 and complemented. With an empty buffer the result is `0xFFFF`. -/
def Obligations.FinishProducesTheChecksum : Prop :=
  (∀ w : Word, w &&& 0xFF00#16 = 0x0200#16 → decode w = .command .finish) ∧
  (∀ (s : State) (x a : Nat), x = s.acc.toNat + s.pend.toNat * 256 →
    a = (if s.pendValid = true then x % 2 ^ 32 + x / 2 ^ 32 else s.acc.toNat) →
    exec .finish s = .next { s with
      acc := 0, pend := 0, pendValid := false, result := BitVec.ofNat 16 (0xFFFF - fold a), resValid := true }) ∧
  (∀ s : State, HiddenIsReset s → exec .finish s = .next { s with result := 0xFFFF, resValid := true }) ∧
  (∀ s t u : State, exec .finish s = .next t → exec .finish t = .next u → u.result = 0xFFFF) ∧
  (∀ s : State, s.acc = 0x00000102 → s.pend = 0x03 → s.pendValid = true →
    exec .finish s = .next { s with
      acc := 0, pend := 0x00, pendValid := false, result := 0xFBFD, resValid := true })

/-- What each command leaves unchanged when it completes. The engine has no memory and no other registers (R9). -/
def Obligations.CommandFrames : Prop :=
  (∀ s t : State, exec .start s = .next t → t.result = s.result ∧ t.input = s.input) ∧
  (∀ (d : Byte) (s t : State), exec (.byte d) s = .next t →
    t.result = s.result ∧ t.ill = s.ill ∧ t.input = s.input ∧ (s.pendValid = false → t.acc = s.acc)) ∧
  (∀ s t : State, exec .finish s = .next t → t.ill = s.ill ∧ t.input = s.input)

/-- R90: the exceptional event `IllegalCommand`: the two conditions, `ILL <- 1` and no other change, reported in
`STATUS` bit 1; no command raises it. -/
def Obligations.IllegalCommandSetsIllOnly : Prop :=
  (∀ (s : State) (w : Word), w.toNat / 2 ^ 10 ≠ 0 ∨ w.toNat / 2 ^ 8 % 4 = 3 →
    step (s.offer (.command w)) = .next { s with ill := true } ∧
    (readStatus { s with ill := true }).getLsbD 1 = true) ∧
  (∀ (i : Instr) (s t : State), exec i s = .next t → t.ill = true → s.ill = true)

/-- R92: a word illegal for two reasons has the effect of either; reset discards a command of the same step. -/
def Obligations.OneEventPerStep : Prop :=
  (∀ (w v : Word) (s : State), isIllegal w = true → isIllegal v = true → acceptCommand w s = acceptCommand v s) ∧
  isIllegal 0x0700#16 = true ∧
  (∀ (c : Option Word) (s : State), step (s.offer (.reset c)) = step (s.offer (.reset none))) ∧
  (∀ (c : Option Word) (s t : State), step (s.offer (.reset c)) = .next t → t.ill = false)

/-- R93: the illegal word changes only `ILL`, and no later step is affected except through `ILL`'s value. -/
def Obligations.IllegalCommandIsPrecise : Prop :=
  (∀ (s : State) (w : Word), isIllegal w = true → acceptCommand w s = .next { s with ill := true }) ∧
  (∀ (k : Nat) (s t : State) (v : Bool), runSteps k s = .next t →
    ∃ v' : Bool, runSteps k { s with ill := v } = .next { t with ill := v' })

/-- R94: only `START` and reset clear `ILL`; a further illegal word while it is 1 changes nothing. -/
def Obligations.OnlyStartAndResetClearIll : Prop :=
  (∀ s t : State, step s = .next t → s.ill = true → t.ill = false →
    ∃ rest, (∃ c, s.input = .reset c :: rest) ∨ (∃ w, s.input = .command w :: rest ∧ decode w = .command .start)) ∧
  (∀ (s : State) (w : Word), s.ill = true → isIllegal w = true → step (s.offer (.command w)) = .next s)

/-- R18: what sets, clears and keeps `RES_VALID`. -/
def Obligations.ResValidRule : Prop :=
  ∀ (s t : State) (e : StepInput), step (s.offer e) = .next t →
    (∀ c, e = .reset c → t.resValid = false) ∧
    (∀ w, e = .command w →
      (decode w = .command .finish → t.resValid = true) ∧
      (decode w = .command .start → t.resValid = false ∧ t.result = s.result) ∧
      (∀ d, decode w = .command (.byte d) → t.resValid = false ∧ t.result = s.result) ∧
      (isIllegal w = true → t.resValid = s.resValid))

/-- R19: what sets, clears and keeps `ILL`. -/
def Obligations.IllRule : Prop :=
  ∀ (s t : State) (e : StepInput), step (s.offer e) = .next t →
    (∀ c, e = .reset c → t.ill = false) ∧
    (∀ w, e = .command w →
      (decode w = .command .start → t.ill = false) ∧
      (∀ d, decode w = .command (.byte d) → t.ill = s.ill) ∧
      (decode w = .command .finish → t.ill = s.ill) ∧
      (isIllegal w = true → t.ill = true))

/-- Whatever the state, only `FINISH` and reset change `RESULT`. -/
def Obligations.OnlyFinishAndResetWriteResult : Prop :=
  ∀ s t : State, step s = .next t → t.result ≠ s.result →
    ∃ rest, (∃ c, s.input = .reset c :: rest) ∨ (∃ w, s.input = .command w :: rest ∧ decode w = .command .finish)

/-- `STATUS = {14'b0, ILL, RES_VALID}`, bit by bit, and its reset value. -/
def Obligations.StatusWordLayout : Prop :=
  (∀ s : State, (readStatus s).getLsbD 0 = s.resValid ∧ (readStatus s).getLsbD 1 = s.ill ∧
    ∀ i, 2 ≤ i → (readStatus s).getLsbD i = false) ∧
  readStatus State.reset = 0x0000

/-! ## Reset -/

/-- R102: reset, at any step and whatever command comes with it, writes every element to its reset value. -/
def Obligations.ResetWritesEveryElement : Prop :=
  (∀ (s : State) (c : Option Word) (rest : List StepInput), s.input = .reset c :: rest →
    ∃ t : State, step s = .next t ∧ t.input = rest ∧
      t.acc = 0x00000000 ∧ t.pend = 0x00 ∧ t.pendValid = false ∧
      t.result = 0xFFFF ∧ t.resValid = false ∧ t.ill = false ∧
      readStatus t = 0x0000 ∧ readResult t = 0xFFFF ∧ t.toEngine = State.reset.toEngine)

/-- "A `FINISH` straight after reset therefore leaves `RESULT` unchanged" (R103), and marks it as a result. -/
def Obligations.FinishAfterResetKeepsResult : Prop :=
  ∀ (s t u : State) (c : Option Word), step (s.offer (.reset c)) = .next t → exec .finish t = .next u →
    t.result = compute [] ∧ t.resValid = false ∧ u.result = t.result ∧ u.resValid = true

/-! ## Invariants of every step -/

/-- R13: every step keeps `PEND = 0x00` whenever `PEND_VALID = 0`; states with the same current buffer agree in every
hidden element. -/
def Obligations.PendIsZeroWhenNotValid : Prop :=
  (∀ s t : State, PendCanonical s → step s = .next t → PendCanonical t) ∧
  (∀ s t : State, step s = .next t → s.pendValid = true → t.pendValid = false → t.pend = 0x00) ∧
  (∀ (B : List Byte) (s t : State), HidesBuffer B s → HidesBuffer B t →
    s.acc = t.acc ∧ s.pend = t.pend ∧ s.pendValid = t.pendValid)

/-- The invariants hold at reset: `PEND` canonical, and the abstract machine's reset state. -/
def Obligations.InvariantsHoldAtReset : Prop :=
  PendCanonical State.reset ∧ Represents Abstract.reset State.reset

/-- R15 (derived in the spec): after every step the hidden state is the stated function of the current buffer. -/
def Obligations.HiddenStateIsAFunctionOfTheBuffer : Prop :=
  HidesBuffer [] State.reset ∧
  ∀ (B : List Byte) (s : State) (e : StepInput) (rest : List StepInput),
    HidesBuffer B s → s.input = e :: rest →
      ∃ t : State, step s = .next t ∧ t.input = rest ∧ HidesBuffer (bufferAfter B e) t

/-- The engine is the abstract machine that keeps a list of bytes and applies the source's `compute` at `FINISH`:
every step of the one is the step of the other. -/
def Obligations.EngineRefinesTheChecksumFunction : Prop :=
  ∀ (a : Abstract) (s : State) (e : StepInput) (rest : List StepInput),
    Represents a s → s.input = e :: rest →
      ∃ t : State, step s = .next t ∧ t.input = rest ∧ Represents (a.apply e) t

/-! ## Calls -/

/-- R85 (derived in the spec): `START; BYTE b0; ...; FINISH` from every state gives `compute`; without the leading `START` too when the
hidden state is that of reset or `FINISH`, and `ILL` then keeps its value. -/
def Obligations.ComputeSequenceGivesTheChecksum : Prop :=
  (∀ (B : List Byte) (s : State) (rest : List StepInput),
    s.input = (computeWords B).map .command ++ rest →
      ∃ t : State, runSteps (B.length + 2) s = .next t ∧ t.input = rest ∧
        t.result = compute B ∧ t.resValid = true ∧ t.ill = false ∧ HiddenIsReset t) ∧
  (∀ (B : List Byte) (s : State) (rest : List StepInput),
    HiddenIsReset s → s.input = (computeWords B).tail.map .command ++ rest →
      ∃ t : State, runSteps (B.length + 1) s = .next t ∧ t.input = rest ∧
        t.result = compute B ∧ t.resValid = true ∧ t.ill = s.ill ∧ HiddenIsReset t) ∧
  HiddenIsReset State.reset ∧
  (∀ s t : State, exec .finish s = .next t → HiddenIsReset t)

/-- A call goes on across illegal words: its `FINISH` gives `compute` of the bytes actually delivered, with `ILL` set if
a word was illegal. Two hosts that interleave on one instance are one such call. -/
def Obligations.FinishGivesTheDeliveredBytes : Prop :=
  ∀ (ws : List Word) (f : Word) (s : State) (rest : List StepInput),
    HiddenIsReset s → (∀ w ∈ ws, insideCall w = true) → decode f = .command .finish →
    s.input = ws.map .command ++ .command f :: rest →
      ∃ t : State, runSteps (ws.length + 1) s = .next t ∧ t.input = rest ∧
        t.result = compute (deliveredBytes ws) ∧ t.resValid = true ∧
        t.ill = (s.ill || ws.any isIllegal) ∧ HiddenIsReset t

/-- The host's rule of R107 and R108 is sound: if `ILL` was clear when the call was opened and the result is usable
after `FINISH`, every word written was a byte of the buffer and the result is its checksum. -/
def Obligations.UsableResultIsTheChecksum : Prop :=
  ∀ (ws : List Word) (f : Word) (s t : State) (rest : List StepInput) (r : Word),
    HiddenIsReset s → s.ill = false → (∀ w ∈ ws, insideCall w = true) → decode f = .command .finish →
    s.input = ws.map .command ++ .command f :: rest →
    runSteps (ws.length + 1) s = .next t → usableResult t = some r →
      (∀ w ∈ ws, isIllegal w = false) ∧ r = compute (ws.map dataField)

/-- R22 (derived in the spec): `START` and `FINISH` leave the hidden state at its reset values, and `RESULT`, `RES_VALID` and `ILL` never
enter the arithmetic: two runs that differ in those agree in the hidden state and in every result either of them
writes. -/
def Obligations.NothingCrossesComputations : Prop :=
  (∀ s t : State, exec .start s = .next t ∨ exec .finish s = .next t → HiddenIsReset t) ∧
  (∀ (k : Nat) (s s' t t' : State),
    s.acc = s'.acc → s.pend = s'.pend → s.pendValid = s'.pendValid → s.input = s'.input →
    runSteps k s = .next t → runSteps k s' = .next t' →
      t.acc = t'.acc ∧ t.pend = t'.pend ∧ t.pendValid = t'.pendValid ∧ t.input = t'.input ∧
      (t.result = t'.result ∨ (t.result = s.result ∧ t'.result = s'.result)))

/-- Nothing a host can write stops the engine: every run goes on (R53, R89). -/
def Obligations.NoInputStopsTheEngine : Prop :=
  ∀ (k : Nat) (s : State), ∃ t : State, runSteps k s = .next t

/-! ## one's_complement_adder -/

/-- R65, R66: `ADD32` on naturals, never carrying out of the end-around addition, with the rule's corner cases. -/
def Obligations.AdderEndAroundCarry : Prop :=
  (∀ (acc : Acc) (w : Word) (x : Nat), x = acc.toNat + w.toNat →
    x % 2 ^ 32 + x / 2 ^ 32 < 2 ^ 32 ∧ (add32 acc w).toNat = x % 2 ^ 32 + x / 2 ^ 32) ∧
  (∀ acc : Acc, add32 acc 0 = acc) ∧
  (∀ (acc : Acc) (w : Word), add32 acc w = 0 → acc = 0 ∧ w = 0) ∧
  add32 0xFFFFFFFF 0x0001 = 0x00000001 ∧ add32 0xFFFFFFFE 0x0001 = 0xFFFFFFFF ∧
  add32 0xFFFFFFFF 0xFFFF = 0x0000FFFF ∧ add32 0x0000FFFF 0x0001 = 0x00010000

/-- R67 (derived in the spec): while the exact sum fits 32 bits, `ACC` is the exact sum and no end-around carry occurs; so it is for every
buffer of at most 131074 bytes, pad word included. -/
def Obligations.AccumulatorIsExactBelow32Bits : Prop :=
  (∀ ws : List Word, (ws.map BitVec.toNat).sum ≤ 2 ^ 32 - 1 →
    (accSum ws).toNat = (ws.map BitVec.toNat).sum ∧
    ∀ pre w post, ws = pre ++ w :: post → (accSum pre).toNat + w.toNat < 2 ^ 32) ∧
  (∀ B : List Byte, B.length ≤ 131074 →
    wordSum B ≤ 2 ^ 32 - 1 ∧ (accSum (fullWords B)).toNat = ((fullWords B).map BitVec.toNat).sum)

/-- R68 (derived in the spec): the closed form of the accumulator, at every length. -/
def Obligations.AccumulatorClosedForm : Prop :=
  ∀ (ws : List Word) (total : Nat), total = (ws.map BitVec.toNat).sum →
    (total = 0 → accSum ws = 0) ∧
    (total > 0 → (accSum ws).toNat = (total - 1) % (2 ^ 32 - 1) + 1) ∧
    (accSum ws).toNat % 0xFFFF = total % 0xFFFF ∧
    (accSum ws = 0 ↔ total = 0) ∧
    fold (accSum ws).toNat = fold total

/-- The order in which words are added does not change the folded accumulator (R69). -/
def Obligations.WordOrderDoesNotMatter : Prop :=
  ∀ ws vs : List Word, ws.Perm vs →
    fold (accSum ws).toNat = fold (accSum vs).toNat ∧ fold2 (accSum ws) = fold2 (accSum vs)

/-! ## carry_fold_unit -/

/-- R71, R72 (derived in the spec): two stages equal the loop for every 32-bit input, the loop makes at most two passes, and stage 2 never
carries. -/
def Obligations.TwoStageFoldEqualsTheLoop : Prop :=
  fold2 0x0002DEEF = 0xDEF1 ∧
  ∀ (x : Acc) (y : Nat), y = (foldStage1 x).toNat →
    (fold2 x).toNat = fold x.toNat ∧ foldLoop 2 x.toNat = fold x.toNat ∧
    y = x.toNat % 2 ^ 16 + x.toNat / 2 ^ 16 ∧ y ≤ 0x1FFFE ∧
    y % 2 ^ 16 + y / 2 ^ 16 ≤ 0xFFFF ∧ (fold2 x).toNat = y % 2 ^ 16 + y / 2 ^ 16

/-- R73 (derived in the spec): the closed form of `FOLD2`; a nonzero multiple of `0xFFFF` folds to `0xFFFF`. -/
def Obligations.FoldUnitClosedForm : Prop :=
  ∀ x : Acc, (fold2 x = 0 ↔ x = 0) ∧
    (x ≠ 0 → (fold2 x).toNat = (x.toNat - 1) % 0xFFFF + 1) ∧
    (x ≠ 0 → x.toNat % 0xFFFF = 0 → fold2 x = 0xFFFF)

/-- R74 (derived in the spec): the corner cases of `FOLD2`: stage 1, result, and the number of passes the loop makes. -/
def Obligations.FoldUnitCornerCases : Prop :=
  [0x00000000#32, 0x00000001#32, 0x0000FFFF#32, 0x00010000#32, 0x0001FFFE#32, 0x0001FFFF#32, 0x80008000#32,
    0xFFFF0000#32, 0xFFFFFFFF#32, 0x12345678#32].map (fun x => (foldStage1 x, fold2 x)) =
  [(0x00000#17, 0x0000#16), (0x00001#17, 0x0001#16), (0x0FFFF#17, 0xFFFF#16), (0x00001#17, 0x0001#16),
    (0x0FFFF#17, 0xFFFF#16), (0x10000#17, 0x0001#16), (0x10000#17, 0x0001#16), (0x0FFFF#17, 0xFFFF#16),
    (0x1FFFE#17, 0xFFFF#16), (0x068AC#17, 0x68AC#16)] ∧
  ∀ row ∈ [(0x00000000, 0), (0x00000001, 0), (0x0000FFFF, 0), (0x00010000, 1), (0x0001FFFE, 1), (0x0001FFFF, 2),
      (0x80008000, 2), (0xFFFF0000, 1), (0xFFFFFFFF, 2), (0x12345678, 1)],
    foldLoop row.2 row.1 ≤ 0xFFFF ∧ ∀ passes < row.2, foldLoop passes row.1 > 0xFFFF

/-- R75: `res_out = 0xFFFF - FOLD2(x_in)`: every bit of the folded sum is inverted. -/
def Obligations.ResultIsTheComplement : Prop :=
  ∀ x : Acc, (resOut x).toNat = 0xFFFF - (fold2 x).toNat ∧
    (∀ i, i < 16 → (resOut x).getLsbD i = !(fold2 x).getLsbD i) ∧
    (fold2 x = 0x0000 → resOut x = 0xFFFF) ∧ (fold2 x = 0xFFFF → resOut x = 0x0000)

/-! ## The checksum function -/

/-- R52: `compute` by byte index: full big-endian pairs, then the trailing byte high, then fold and complement. -/
def Obligations.ComputeByByteIndex : Prop :=
  ∀ (B : List Byte) (n s : Nat), n = B.length →
    s = (Finset.range (n / 2)).sum (fun i => (B.getD (2 * i) 0).toNat * 256 + (B.getD (2 * i + 1) 0).toNat)
      + (if n % 2 = 1 then (B.getD (n - 1) 0).toNat * 256 else 0) →
    (n = 0 → compute B = 0xFFFF) ∧ (compute B).toNat = 0xFFFF - fold s ∧ fold s ≤ 0xFFFF

/-- A trailing zero byte changes no checksum, at even and at odd length (R48). -/
def Obligations.TrailingZeroByteIsNeutral : Prop := ∀ B : List Byte, compute (B ++ [0x00]) = compute B

/-- R55 (derived in the spec): the closed form of the fold loop, for every natural, and of `compute`. -/
def Obligations.FoldLoopClosedForm : Prop :=
  fold 0 = 0 ∧ (∀ x : Nat, x > 0 → fold x = (x - 1) % 0xFFFF + 1) ∧
  (∀ B : List Byte, (wordSum B = 0 → compute B = 0xFFFF) ∧
    (wordSum B ≠ 0 → (compute B).toNat = 0xFFFF - ((wordSum B - 1) % 0xFFFF + 1)))

/-- R56 (derived in the spec): the checksum is `0xFFFF` exactly for the all-zero buffers, the empty one included. -/
def Obligations.ChecksumAllOnesIffAllZero : Prop :=
  ∀ B : List Byte, compute B = 0xFFFF ↔ ∀ b ∈ B, b = 0x00

/-- R57 (derived in the spec): the checksum is `0x0000` exactly when the folded sum is `0xFFFF`; never for an all-zero buffer. -/
def Obligations.ChecksumZeroIffFoldAllOnes : Prop :=
  (∀ B : List Byte, (compute B = 0x0000 ↔ wordSum B > 0 ∧ wordSum B % 0xFFFF = 0) ∧
    (compute B = 0x0000 ↔ fold (wordSum B) = 0xFFFF) ∧
    ((∀ b ∈ B, b = 0x00) → compute B ≠ 0x0000)) ∧
  compute [0xFF, 0xFF] = 0x0000

/-- R58 (derived in the spec): self-verification as corrected: true at even length, at odd length only if 257 divides the folded sum, and
always at odd length with a zero pad byte or with the field low byte first. -/
def Obligations.SelfVerificationCorrected : Prop :=
  (∀ (B : List Byte) (hi lo : Byte), compute B = hi ++ lo →
    (B.length % 2 = 0 → compute (B ++ [hi, lo]) = 0x0000) ∧
    (B.length % 2 = 1 → (compute (B ++ [hi, lo]) = 0x0000 ↔ fold (wordSum B) % 257 = 0)) ∧
    (B.length % 2 = 1 → (fold (wordSum B) % 257 = 0 ↔ fold (wordSum B) / 256 = fold (wordSum B) % 256)) ∧
    (B.length % 2 = 1 → compute (B ++ [0x00] ++ [hi, lo]) = 0x0000 ∧ compute (B ++ [lo, hi]) = 0x0000)) ∧
  compute [0x01, 0x02, 0x03] = 0xFBFD ∧ compute [0x01, 0x02, 0x03, 0xFB, 0xFD] = 0xFE01

/-- R59 (derived in the spec): verification over a frame as corrected: a field at an even offset verifies to zero; removing the field equals
zeroing it, at any offset; an odd offset fails in the rule's example. -/
def Obligations.FrameVerificationCorrected : Prop :=
  (∀ (before after : List Byte) (hi lo : Byte), compute (before ++ [0x00, 0x00] ++ after) = hi ++ lo →
    before.length % 2 = 0 → compute (before ++ [hi, lo] ++ after) = 0x0000) ∧
  (∀ before after : List Byte, compute (before ++ after) = compute (before ++ [0x00, 0x00] ++ after)) ∧
  compute [0xAB, 0x00, 0x00, 0xCD, 0x12] = 0x4232 ∧ compute [0xAB, 0x42, 0x32, 0xCD, 0x12] = 0x0FF0

/-- R60 (derived in the spec): swapping bytes of the same parity never changes the checksum; swapping unequal bytes of different parity
always does; swapping equal bytes changes nothing. -/
def Obligations.OrderSensitivityCorrected : Prop :=
  ∀ (B C : List Byte) (i j : Nat) (b c : Byte), i ≠ j → B[i]? = some b → B[j]? = some c →
    C = (B.set i c).set j b →
      (i % 2 = j % 2 → compute C = compute B) ∧
      (i % 2 ≠ j % 2 → b ≠ c → compute C ≠ compute B) ∧
      (b = c → C = B)

/-- R61 (derived in the spec): swapping the two bytes of every word of an even-length buffer swaps the bytes of its checksum; at odd length it
fails (an example of the model's own: the trailing byte does not move). -/
def Obligations.ByteSwappedInputSwapsChecksum : Prop :=
  (∀ (B C : List Byte) (hi lo : Byte), B.length % 2 = 0 → C.length = B.length →
    (∀ i, 2 * i + 1 < B.length → C[2 * i]? = B[2 * i + 1]? ∧ C[2 * i + 1]? = B[2 * i]?) →
    compute B = hi ++ lo → compute C = lo ++ hi) ∧
  compute [0x00, 0x01, 0x02] = 0xFDFE ∧ compute [0x01, 0x00, 0x02] = 0xFCFF

/-- R62 (derived in the spec): the word sum of a concatenation after an even-length piece; after an odd-length piece it fails. -/
def Obligations.EvenPiecesConcatenate : Prop :=
  (∀ A B : List Byte, A.length % 2 = 0 →
    wordSum (A ++ B) = wordSum A + wordSum B ∧
    fold (wordSum (A ++ B)) = fold (fold (wordSum A) + fold (wordSum B))) ∧
  (∃ A B : List Byte, A.length % 2 = 1 ∧
    fold (wordSum (A ++ B)) ≠ fold (fold (wordSum A) + fold (wordSum B)))

/-! ## The host and the platform -/

/-- R33, with reads as functions of the state (log entry 10): actions are taken in one total order, and a read
returns the state after every step accepted before it. -/
def Obligations.HostActionsAreSequential : Prop :=
  (∀ (as bs : List HostAction) (s : State),
    hostRun (as ++ bs) s = andThen (hostRun as s) fun u =>
      andThen (hostRun bs u.1) fun v => .next (v.1, u.2 ++ v.2)) ∧
  (∀ (as : List HostAction) (s t : State) (vs : List Word), hostRun as s = .next (t, vs) →
    hostRun (as ++ [.rdResult, .rdStatus]) s = .next (t, vs ++ [t.result, statusWord t.ill t.resValid]))

/-- Host reads are not steps: leaving them out of a host's actions changes no state (R76, R82, R83). -/
def Obligations.HostReadsChangeNothing : Prop :=
  ∀ (as : List HostAction) (s : State), ∃ (t : State) (vs : List Word),
    hostRun as s = .next (t, vs) ∧ hostRun (as.filter fun a => a.stepInput.isSome) s = .next (t, [])

/-- A host observes only `RESULT` and `STATUS`: states that differ in the hidden elements read alike (R14). -/
def Obligations.HiddenStateIsNotObserved : Prop :=
  ∀ s t : State, s.result = t.result → s.resValid = t.resValid → s.ill = t.ill →
    readResult s = readResult t ∧ readStatus s = readStatus t

/-- Instances share nothing: acting on one leaves every other as it was, and actions on two instances commute (R34). -/
def Obligations.InstancesAreIndependent : Prop :=
  (∀ (k : Nat) (a : HostAction) (p q : Platform), p.act k a = some q →
    q.engines.length = p.engines.length ∧
    (∀ j, j ≠ k → q.engines[j]? = p.engines[j]?) ∧
    ∃ s t, p.engines[k]? = some s ∧ hostStep a s = .next t ∧ q.engines[k]? = some t) ∧
  (∀ (j k : Nat) (a b : HostAction) (p : Platform), j ≠ k →
    (p.act j a).bind (Platform.act k b) = (p.act k b).bind (Platform.act j a))

/-- A platform has at least one instance and every instance leaves reset in the same state, the reset state (R99). -/
def Obligations.PlatformResetIsUniform : Prop :=
  Platform.reset.wf ∧ 1 ≤ Config.nEngines ∧
  ∀ k, k < Config.nEngines → Platform.reset.engines[k]? = some State.reset
end

