-- ==== Sys2Proof/Laws/Arithmetic.lean ====
section
/-! SUPPORT. What each datapath operation computes, as natural numbers: one lemma per operation, for proofs to cite
instead of unfolding it. -/

namespace Sys2Proof.Machine

theorem pairWord_toNat (hi lo : Byte) : (pairWord hi lo).toNat = hi.toNat * 256 + lo.toNat := by
  have h : lo.toNat < 2 ^ 8 := lo.isLt
  rw [pairWord, BitVec.toNat_append, Nat.shiftLeft_eq, Nat.mul_comm, ← Nat.two_pow_add_eq_or_of_lt h]

theorem padWord_toNat (b : Byte) : (padWord b).toNat = b.toNat * 256 := by
  simp [padWord, pairWord_toNat]

/-- The 33-bit sum does not wrap (R65). -/
theorem adderSum_toNat (acc : Acc) (w : Word) : (adderSum acc w).toNat = acc.toNat + w.toNat := by
  have := acc.isLt
  have := w.isLt
  simp [adderSum, BitVec.toNat_add]
  omega

/-- ADD32 as naturals, with no carry out of the end-around addition (R65, R66). -/
theorem add32_toNat (acc : Acc) (w : Word) :
    (add32 acc w).toNat = (acc.toNat + w.toNat) % 2 ^ 32 + (acc.toNat + w.toNat) / 2 ^ 32 := by
  have := acc.isLt
  have := w.isLt
  have hq : (acc.toNat + w.toNat) / 4294967296 = 0 ∨ (acc.toNat + w.toNat) / 4294967296 = 1 := by omega
  simp only [add32, BitVec.toNat_add, BitVec.extractLsb'_toNat, BitVec.toNat_setWidth, adderSum_toNat,
    Nat.shiftRight_eq_div_pow, Nat.reducePow, Nat.div_one]
  rcases hq with hq | hq <;> rw [hq] <;> omega

@[simp] theorem accSum_nil : accSum [] = 0#32 := rfl

theorem accSum_append (ws : List Word) (w : Word) : accSum (ws ++ [w]) = add32 (accSum ws) w := by
  simp [accSum]

theorem foldStage1_toNat (x : Acc) : (foldStage1 x).toNat = x.toNat % 65536 + x.toNat / 65536 := by
  have hx := x.isLt
  have hhi : x.toNat / 65536 < 65536 := by omega
  have hlo : x.toNat % 65536 < 65536 := by omega
  simp only [foldStage1, BitVec.toNat_add, BitVec.extractLsb'_toNat, BitVec.toNat_setWidth,
    Nat.shiftRight_eq_div_pow, Nat.reducePow, Nat.div_one]
  rw [Nat.mod_eq_of_lt hhi, Nat.mod_eq_of_lt (show x.toNat % 65536 < 131072 by omega),
    Nat.mod_eq_of_lt (show x.toNat / 65536 < 131072 by omega), Nat.mod_eq_of_lt (by omega)]

theorem foldStage2_toNat (y : BitVec 17) (h : y.toNat ≤ 0x1FFFE) :
    (foldStage2 y).toNat = y.toNat % 65536 + y.toNat / 65536 := by
  have hq : y.toNat / 65536 = 0 ∨ y.toNat / 65536 = 1 := by omega
  simp only [foldStage2, BitVec.toNat_add, BitVec.extractLsb'_toNat, BitVec.toNat_setWidth,
    Nat.shiftRight_eq_div_pow, Nat.reducePow, Nat.div_one]
  rcases hq with hq | hq <;> rw [hq] <;> omega

/-- FOLD2 is two fold passes (R71). -/
theorem fold2_toNat (x : Acc) :
    (fold2 x).toNat = (x.toNat % 65536 + x.toNat / 65536) % 65536 + (x.toNat % 65536 + x.toNat / 65536) / 65536 := by
  have := x.isLt
  rw [fold2, foldStage2_toNat, foldStage1_toNat]
  rw [foldStage1_toNat]
  omega

theorem resOut_toNat (x : Acc) : (resOut x).toNat = 0xFFFF - (fold2 x).toNat := by
  simp [resOut, BitVec.toNat_not]

theorem foldPass_eq (x : Nat) : foldPass x = x % 65536 + x / 65536 := by
  have h : x &&& 0xFFFF = x % 2 ^ 16 := Nat.and_two_pow_sub_one_eq_mod x 16
  simp only [foldPass, h, Nat.shiftRight_eq_div_pow, Nat.reducePow]

/-- A pass on a value over 16 bits makes it smaller (R50). -/
theorem foldPass_lt (x : Nat) (h : x > 0xFFFF) : foldPass x < x := by
  rw [foldPass_eq]
  omega

theorem foldLoop_small (fuel x : Nat) (h : x ≤ 0xFFFF) : foldLoop fuel x = x := by
  cases fuel with
  | zero => rfl
  | succ k => rw [foldLoop, if_neg (by omega)]

/-- Fuel beyond the value itself changes nothing. -/
theorem foldLoop_enough : ∀ (fuel x : Nat), x ≤ fuel → foldLoop fuel x = foldLoop x x := by
  intro fuel
  induction fuel using Nat.strong_induction_on with
  | _ fuel ih =>
    intro x hx
    by_cases hbig : x > 0xFFFF
    · obtain ⟨f, rfl⟩ : ∃ f, fuel = f + 1 := ⟨fuel - 1, by omega⟩
      obtain ⟨y, rfl⟩ : ∃ y, x = y + 1 := ⟨x - 1, by omega⟩
      have hlt := foldPass_lt (y + 1) hbig
      rw [foldLoop, foldLoop, if_pos hbig, if_pos hbig, ih f (by omega) _ (by omega)]
      by_cases hy : y < f + 1
      · rw [ih y hy _ (by omega)]
      · omega
    · rw [foldLoop_small fuel x (by omega), foldLoop_small x x (by omega)]

/-- The loop of R50, one pass at a time, with no fuel in sight. -/
theorem fold_eq (x : Nat) : fold x = if x > 0xFFFF then fold (foldPass x) else x := by
  by_cases hbig : x > 0xFFFF
  · obtain ⟨y, rfl⟩ : ∃ y, x = y + 1 := ⟨x - 1, by omega⟩
    have hlt := foldPass_lt (y + 1) hbig
    rw [if_pos hbig, fold, foldLoop, if_pos hbig, fold, foldLoop_enough y _ (by omega)]
  · rw [if_neg hbig, fold]
    cases x with
    | zero => rfl
    | succ y => rw [foldLoop, if_neg hbig]

@[simp] theorem fullWords_nil : fullWords [] = [] := rfl
@[simp] theorem fullWords_single (b : Byte) : fullWords [b] = [] := rfl
@[simp] theorem fullWords_pair (hi lo : Byte) (B : List Byte) :
    fullWords (hi :: lo :: B) = pairWord hi lo :: fullWords B := rfl
@[simp] theorem trailingByte_nil : trailingByte [] = none := rfl
@[simp] theorem trailingByte_single (b : Byte) : trailingByte [b] = some b := rfl
@[simp] theorem trailingByte_pair (hi lo : Byte) (B : List Byte) :
    trailingByte (hi :: lo :: B) = trailingByte B := rfl

@[simp] theorem wordSum_nil : wordSum [] = 0 := rfl
theorem wordSum_single (b : Byte) : wordSum [b] = b.toNat * 256 := by simp [wordSum, padValue]
theorem wordSum_pair (hi lo : Byte) (B : List Byte) :
    wordSum (hi :: lo :: B) = (hi.toNat * 256 + lo.toNat) + wordSum B := by
  simp [wordSum, padValue, pairWord_toNat]
  omega

end Sys2Proof.Machine
end

