-- ==== Sys2Proof/Laws/PerInstr.lean ====
section
/-! SUPPORT. Facts about every command as syntax, one lemma per constructor. -/

namespace Sys2Proof.Laws.EncodedRow

/-- The encoding of a well-formed command lies in its row of R39's table: `w & mask = match`. -/
def Statement (i : Instr) : Prop := i.wellFormed = true → encode i &&& rowMask = i.rowMatch

theorem start : Statement .start := fun _ => by decide

theorem byte (d : Byte) : Statement (.byte d) := fun _ => by revert d; decide

theorem finish : Statement .finish := fun _ => by decide

end Sys2Proof.Laws.EncodedRow
end

