-- ==== Sys2Proof/Laws/Platform.lean ====
section
/-! SUPPORT. All that a host access through `PLATFORM_MAP` can do, said once for writes and once for reads. -/

namespace Sys2Proof.Machine

/-- A bus write that takes effect is a command written to the `CMD` port the map places there for writes. -/
theorem busWrite_cases {a : Nat} {w : Word} {p q : Platform} (h : p.busWrite a w = some q) :
    ∃ k, Config.platformMap .write a = some (k, .cmd) ∧ p.act k (.write w) = some q := by
  unfold Platform.busWrite at h
  split at h <;> first | cases h | exact ⟨_, ‹_›, h⟩

/-- A bus read that returns a value reads the `RESULT` or `STATUS` port the map places there for reads. -/
theorem busRead_cases {a : Nat} {p : Platform} {v : Word} (h : p.busRead a = some v) :
    ∃ k s, p.engines[k]? = some s ∧
      ((Config.platformMap .read a = some (k, .result) ∧ v = readResult s) ∨
        (Config.platformMap .read a = some (k, .status) ∧ v = readStatus s)) := by
  unfold Platform.busRead at h
  split at h
  · rename_i k hmap
    obtain ⟨s, hs, rfl⟩ := Option.map_eq_some_iff.1 h
    exact ⟨k, s, hs, .inl ⟨hmap, rfl⟩⟩
  · rename_i k hmap
    obtain ⟨s, hs, rfl⟩ := Option.map_eq_some_iff.1 h
    exact ⟨k, s, hs, .inr ⟨hmap, rfl⟩⟩
  · cases h
  · cases h

end Sys2Proof.Machine
end

