-- ==== Sys2Proof/Laws/State.lean ====
section
/-! SUPPORT. One lemma per field of each update of the state, so that no later proof unfolds a record update. -/

namespace Sys2Proof.Machine

@[simp] theorem clearHidden_acc (s : State) : (clearHidden s).acc = 0#32 := rfl
@[simp] theorem clearHidden_pend (s : State) : (clearHidden s).pend = 0x00#8 := rfl
@[simp] theorem clearHidden_pendValid (s : State) : (clearHidden s).pendValid = false := rfl
@[simp] theorem clearHidden_result (s : State) : (clearHidden s).result = s.result := rfl
@[simp] theorem clearHidden_resValid (s : State) : (clearHidden s).resValid = s.resValid := rfl
@[simp] theorem clearHidden_ill (s : State) : (clearHidden s).ill = s.ill := rfl
@[simp] theorem clearHidden_input (s : State) : (clearHidden s).input = s.input := rfl

@[simp] theorem setResValid_acc (v : Bool) (s : State) : (setResValid v s).acc = s.acc := rfl
@[simp] theorem setResValid_pend (v : Bool) (s : State) : (setResValid v s).pend = s.pend := rfl
@[simp] theorem setResValid_pendValid (v : Bool) (s : State) : (setResValid v s).pendValid = s.pendValid := rfl
@[simp] theorem setResValid_result (v : Bool) (s : State) : (setResValid v s).result = s.result := rfl
@[simp] theorem setResValid_resValid (v : Bool) (s : State) : (setResValid v s).resValid = v := rfl
@[simp] theorem setResValid_ill (v : Bool) (s : State) : (setResValid v s).ill = s.ill := rfl
@[simp] theorem setResValid_input (v : Bool) (s : State) : (setResValid v s).input = s.input := rfl

@[simp] theorem setIll_acc (v : Bool) (s : State) : (setIll v s).acc = s.acc := rfl
@[simp] theorem setIll_pend (v : Bool) (s : State) : (setIll v s).pend = s.pend := rfl
@[simp] theorem setIll_pendValid (v : Bool) (s : State) : (setIll v s).pendValid = s.pendValid := rfl
@[simp] theorem setIll_result (v : Bool) (s : State) : (setIll v s).result = s.result := rfl
@[simp] theorem setIll_resValid (v : Bool) (s : State) : (setIll v s).resValid = s.resValid := rfl
@[simp] theorem setIll_ill (v : Bool) (s : State) : (setIll v s).ill = v := rfl
@[simp] theorem setIll_input (v : Bool) (s : State) : (setIll v s).input = s.input := rfl

@[simp] theorem setResult_acc (r : Word) (s : State) : (setResult r s).acc = s.acc := rfl
@[simp] theorem setResult_pend (r : Word) (s : State) : (setResult r s).pend = s.pend := rfl
@[simp] theorem setResult_pendValid (r : Word) (s : State) : (setResult r s).pendValid = s.pendValid := rfl
@[simp] theorem setResult_result (r : Word) (s : State) : (setResult r s).result = r := rfl
@[simp] theorem setResult_resValid (r : Word) (s : State) : (setResult r s).resValid = s.resValid := rfl
@[simp] theorem setResult_ill (r : Word) (s : State) : (setResult r s).ill = s.ill := rfl
@[simp] theorem setResult_input (r : Word) (s : State) : (setResult r s).input = s.input := rfl

@[simp] theorem raiseIllegalCommand_acc (s : State) : (raiseIllegalCommand s).acc = s.acc := rfl
@[simp] theorem raiseIllegalCommand_pend (s : State) : (raiseIllegalCommand s).pend = s.pend := rfl
@[simp] theorem raiseIllegalCommand_pendValid (s : State) : (raiseIllegalCommand s).pendValid = s.pendValid := rfl
@[simp] theorem raiseIllegalCommand_result (s : State) : (raiseIllegalCommand s).result = s.result := rfl
@[simp] theorem raiseIllegalCommand_resValid (s : State) : (raiseIllegalCommand s).resValid = s.resValid := rfl
@[simp] theorem raiseIllegalCommand_ill (s : State) : (raiseIllegalCommand s).ill = true := rfl
@[simp] theorem raiseIllegalCommand_input (s : State) : (raiseIllegalCommand s).input = s.input := rfl

@[simp] theorem applyReset_acc (s : State) : (applyReset s).acc = 0#32 := rfl
@[simp] theorem applyReset_pend (s : State) : (applyReset s).pend = 0x00#8 := rfl
@[simp] theorem applyReset_pendValid (s : State) : (applyReset s).pendValid = false := rfl
@[simp] theorem applyReset_result (s : State) : (applyReset s).result = 0xFFFF#16 := rfl
@[simp] theorem applyReset_resValid (s : State) : (applyReset s).resValid = false := rfl
@[simp] theorem applyReset_ill (s : State) : (applyReset s).ill = false := rfl
@[simp] theorem applyReset_input (s : State) : (applyReset s).input = s.input := rfl

@[simp] theorem State.offer_acc (e : StepInput) (s : State) : (s.offer e).acc = s.acc := rfl
@[simp] theorem State.offer_pend (e : StepInput) (s : State) : (s.offer e).pend = s.pend := rfl
@[simp] theorem State.offer_pendValid (e : StepInput) (s : State) : (s.offer e).pendValid = s.pendValid := rfl
@[simp] theorem State.offer_result (e : StepInput) (s : State) : (s.offer e).result = s.result := rfl
@[simp] theorem State.offer_resValid (e : StepInput) (s : State) : (s.offer e).resValid = s.resValid := rfl
@[simp] theorem State.offer_ill (e : StepInput) (s : State) : (s.offer e).ill = s.ill := rfl
@[simp] theorem State.offer_input (e : StepInput) (s : State) : (s.offer e).input = e :: s.input := rfl

@[simp] theorem State.withInput_acc (rest : List StepInput) (s : State) : (s.withInput rest).acc = s.acc := rfl
@[simp] theorem State.withInput_pend (rest : List StepInput) (s : State) : (s.withInput rest).pend = s.pend := rfl
@[simp] theorem State.withInput_pendValid (rest : List StepInput) (s : State) : (s.withInput rest).pendValid = s.pendValid := rfl
@[simp] theorem State.withInput_result (rest : List StepInput) (s : State) : (s.withInput rest).result = s.result := rfl
@[simp] theorem State.withInput_resValid (rest : List StepInput) (s : State) : (s.withInput rest).resValid = s.resValid := rfl
@[simp] theorem State.withInput_ill (rest : List StepInput) (s : State) : (s.withInput rest).ill = s.ill := rfl
@[simp] theorem State.withInput_input (rest : List StepInput) (s : State) : (s.withInput rest).input = rest := rfl

/-! `appendByte` depends on the parity of the current buffer (43_engine_commands.md R79). -/

theorem appendByte_even (d : Byte) (s : State) (h : s.pendValid = false) :
    appendByte d s = { s with pend := d, pendValid := true } := by simp [appendByte, h]

theorem appendByte_odd (d : Byte) (s : State) (h : s.pendValid = true) :
    appendByte d s = { s with acc := add32 s.acc (pairWord s.pend d), pend := 0x00#8, pendValid := false } := by
  simp [appendByte, h]

@[simp] theorem appendByte_pendValid (d : Byte) (s : State) : (appendByte d s).pendValid = !s.pendValid := by
  cases h : s.pendValid <;> simp [appendByte, h]

@[simp] theorem appendByte_pend (d : Byte) (s : State) :
    (appendByte d s).pend = if s.pendValid then 0x00#8 else d := by
  cases h : s.pendValid <;> simp [appendByte, h]

@[simp] theorem appendByte_acc (d : Byte) (s : State) :
    (appendByte d s).acc = if s.pendValid then add32 s.acc (pairWord s.pend d) else s.acc := by
  cases h : s.pendValid <;> simp [appendByte, h]

@[simp] theorem appendByte_result (d : Byte) (s : State) : (appendByte d s).result = s.result := by
  cases h : s.pendValid <;> simp [appendByte, h]

@[simp] theorem appendByte_resValid (d : Byte) (s : State) : (appendByte d s).resValid = s.resValid := by
  cases h : s.pendValid <;> simp [appendByte, h]

@[simp] theorem appendByte_ill (d : Byte) (s : State) : (appendByte d s).ill = s.ill := by
  cases h : s.pendValid <;> simp [appendByte, h]

@[simp] theorem appendByte_input (d : Byte) (s : State) : (appendByte d s).input = s.input := by
  cases h : s.pendValid <;> simp [appendByte, h]

/-- Two states with the same seven fields are the same state. -/
theorem State.eq_of_fields {s t : State} (h1 : s.acc = t.acc) (h2 : s.pend = t.pend) (h3 : s.pendValid = t.pendValid)
    (h4 : s.result = t.result) (h5 : s.resValid = t.resValid) (h6 : s.ill = t.ill) (h7 : s.input = t.input) : s = t := by
  obtain ⟨⟨_, _, _, _, _, _⟩, _⟩ := s
  obtain ⟨⟨_, _, _, _, _, _⟩, _⟩ := t
  simp_all

end Sys2Proof.Machine
end

