-- ==== Sys2Proof/Laws/Step.lean ====
section
/-! SUPPORT. What a word decodes to and what a step does, each said once. -/

namespace Sys2Proof.Machine

theorem rsvField_eq_zero (w : Word) : rsvField w = 0#6 ↔ w.toNat < 1024 := by
  have := w.isLt
  rw [← BitVec.toNat_inj]
  simp only [rsvField, BitVec.extractLsb'_toNat, Nat.shiftRight_eq_div_pow, BitVec.toNat_ofNat]
  omega

theorem opField_eq (w : Word) (h : w.toNat < 1024) (k : BitVec 2) : opField w = k ↔ w.toNat / 256 = k.toNat := by
  have := k.isLt
  rw [← BitVec.toNat_inj]
  simp only [opField, BitVec.extractLsb'_toNat, Nat.shiftRight_eq_div_pow]
  omega

theorem dataField_toNat (w : Word) : (dataField w).toNat = w.toNat % 256 := by
  simp only [dataField, BitVec.extractLsb'_toNat, Nat.shiftRight_eq_div_pow]
  omega

/-- Decoding by the word's value: R39's word ranges, and every other word illegal (R40). -/
theorem decode_cases (w : Word) :
    (w.toNat < 256 ∧ decode w = .command .start) ∨
    (256 ≤ w.toNat ∧ w.toNat < 512 ∧ decode w = .command (.byte (dataField w))) ∨
    (512 ≤ w.toNat ∧ w.toNat < 768 ∧ decode w = .command .finish) ∨
    (768 ≤ w.toNat ∧ w.toNat < 1024 ∧ decode w = .illegal .opThree) ∨
    (1024 ≤ w.toNat ∧ decode w = .illegal .rsvNotZero) := by
  by_cases hr : w.toNat < 1024
  · simp only [decode, ne_eq, (rsvField_eq_zero w).2 hr, not_true_eq_false, if_false, opField_eq w hr]
    simp only [BitVec.toNat_ofNat]
    split
    · left; exact ⟨by omega, rfl⟩
    · split
      · right; left; exact ⟨by omega, by omega, rfl⟩
      · split
        · right; right; left; exact ⟨by omega, by omega, rfl⟩
        · right; right; right; left; exact ⟨by omega, by omega, rfl⟩
  · have hr' : rsvField w ≠ 0#6 := fun h => hr ((rsvField_eq_zero w).1 h)
    right; right; right; right
    exact ⟨by omega, by simp [decode, hr']⟩

@[simp] theorem exec_start (s : State) :
    exec .start s = .next (setIll false (setResValid false (clearHidden s))) := rfl
@[simp] theorem exec_byte (d : Byte) (s : State) :
    exec (.byte d) s = .next (setResValid false (appendByte d s)) := rfl
@[simp] theorem exec_finish (s : State) :
    exec .finish s = .next (setResValid true (clearHidden (setResult (resOut (foldInput s)) s))) := rfl

theorem acceptCommand_of_command {w : Word} {i : Instr} (h : decode w = .command i) (s : State) :
    acceptCommand w s = exec i s := by simp [acceptCommand, h]

theorem acceptCommand_of_illegal {w : Word} {why : IllegalReason} (h : decode w = .illegal why) (s : State) :
    acceptCommand w s = .next (raiseIllegalCommand s) := by simp [acceptCommand, h]

@[simp] theorem applyInput_command (w : Word) (s : State) : applyInput (.command w) s = acceptCommand w s := rfl
@[simp] theorem applyInput_reset (c : Option Word) (s : State) :
    applyInput (.reset c) s = .next (applyReset s) := rfl

/-- All that accepting a word can do (43_engine_commands.md R77). -/
theorem acceptCommand_cases {w : Word} {s t : State} (h : acceptCommand w s = .next t) :
    (decode w = .command .start ∧ t = setIll false (setResValid false (clearHidden s))) ∨
    (∃ d, decode w = .command (.byte d) ∧ t = setResValid false (appendByte d s)) ∨
    (decode w = .command .finish ∧
      t = setResValid true (clearHidden (setResult (resOut (foldInput s)) s))) ∨
    (∃ why, decode w = .illegal why ∧ t = raiseIllegalCommand s) := by
  cases hd : decode w with
  | illegal why =>
    rw [acceptCommand_of_illegal hd] at h
    exact .inr (.inr (.inr ⟨why, rfl, (Host.Outcome.next.inj h).symm⟩))
  | command i =>
    rw [acceptCommand_of_command hd] at h
    cases i with
    | start => exact .inl ⟨rfl, (Host.Outcome.next.inj h).symm⟩
    | byte d => exact .inr (.inl ⟨d, rfl, (Host.Outcome.next.inj h).symm⟩)
    | finish => exact .inr (.inr (.inl ⟨rfl, (Host.Outcome.next.inj h).symm⟩))

/-- Accepting a word leaves what the host will do next as it is. -/
theorem acceptCommand_input {w : Word} {s t : State} (h : acceptCommand w s = .next t) : t.input = s.input := by
  obtain ⟨-, rfl⟩ | ⟨d, -, rfl⟩ | ⟨-, rfl⟩ | ⟨why, -, rfl⟩ := acceptCommand_cases h <;> simp

theorem step_of_input {s : State} {e : StepInput} {rest : List StepInput} (h : s.input = e :: rest) :
    step s = applyInput e (s.withInput rest) := by simp [step, h]

theorem step_idle {s : State} (h : s.input = []) : step s = .next s := by simp [step, h]

/-- All that a step can do (R76): nothing, reset, or one word. -/
theorem step_cases {s t : State} (h : step s = .next t) :
    (s.input = [] ∧ t = s) ∨
    (∃ c rest, s.input = .reset c :: rest ∧ t = applyReset (s.withInput rest)) ∨
    (∃ w rest, s.input = .command w :: rest ∧ acceptCommand w (s.withInput rest) = .next t) := by
  cases hi : s.input with
  | nil => exact .inl ⟨rfl, (Host.Outcome.next.inj ((step_idle hi).symm.trans h)).symm⟩
  | cons e rest =>
    rw [step_of_input hi] at h
    cases e with
    | reset c => exact .inr (.inl ⟨c, rest, rfl, (Host.Outcome.next.inj h).symm⟩)
    | command w => exact .inr (.inr ⟨w, rest, rfl, h⟩)

@[simp] theorem withInput_offer (e : StepInput) (s : State) : (s.offer e).withInput s.input = s := rfl

/-- A step the host asks for now, whatever it asks for later. -/
theorem step_offer (e : StepInput) (s : State) : step (s.offer e) = applyInput e s := rfl

@[simp] theorem andThen_next {α β : Type} (a : α) (f : α → Host.Outcome β Fault Refusal) :
    andThen (.next a) f = f a := rfl

@[simp] theorem runSteps_zero (s : State) : runSteps 0 s = .next s := rfl

theorem runSteps_succ {s t : State} (h : step s = .next t) (k : Nat) : runSteps (k + 1) s = runSteps k t := by
  simp [runSteps, h]

theorem runSteps_of_fault {s : State} {r : Fault} (h : step s = .fault r) (k : Nat) :
    runSteps (k + 1) s = .fault r := by simp [runSteps, h, andThen]

theorem runSteps_of_refused {s : State} {r : Refusal} (h : step s = .refused r) (k : Nat) :
    runSteps (k + 1) s = .refused r := by simp [runSteps, h, andThen]

theorem coreRun_of_next (M : Host.Core) (k : Nat) {s t : M.State} (h : M.step s = .next t) :
    M.run (k + 1) s = M.run k t := by rw [Host.Core.run, h]

theorem coreRun_of_fault (M : Host.Core) (k : Nat) {s : M.State} {r : M.Fault} (h : M.step s = .fault r) :
    M.run (k + 1) s = .fault r := by rw [Host.Core.run, h]

theorem coreRun_of_refused (M : Host.Core) (k : Nat) {s : M.State} {r : M.Refusal} (h : M.step s = .refused r) :
    M.run (k + 1) s = .refused r := by rw [Host.Core.run, h]

/-- The model's own run is the host's. -/
theorem coreRun_eq_runSteps (k : Nat) (s : State) : Host.Core.run core k s = runSteps k s := by
  induction k generalizing s with
  | zero => rfl
  | succ k ih =>
    cases h : step s with
    | next t => exact (coreRun_of_next core k h).trans ((ih t).trans (runSteps_succ h k).symm)
    | fault r => exact (coreRun_of_fault core k h).trans (runSteps_of_fault h k).symm
    | refused r => exact (coreRun_of_refused core k h).trans (runSteps_of_refused h k).symm

end Sys2Proof.Machine
end

