-- ==== Sys2Proof/Tests/Slice0.lean ====
section
/-! SUPPORT. Tests against the spec's own vectors (95_test_vectors.md, 30_encoding.md section 6, rule examples), and a
witness for every statement that has hypotheses. -/

namespace Sys2Proof.Tests

open Sys2Proof.Machine

/-- A state in the notation of 95_test_vectors.md: `ACC / PEND / PEND_VALID / RESULT / RES_VALID / ILL`. -/
def eng (acc : Acc) (pend : Byte) (pendValid : Bool) (result : Word) (resValid ill : Bool) : Engine :=
  ⟨acc, pend, pendValid, result, resValid, ill⟩

/-- The engine with the host about to do `es`. -/
def withEngine (e : Engine) (es : List StepInput) : State := { e with input := es }

/-- The engine after an outcome, if it is a next state. -/
def after (o : Host.Outcome State Fault Refusal) : Option Engine :=
  match o with
  | .next t => some t.toEngine
  | .fault _ => none
  | .refused _ => none

/-- The engine after one command word. -/
def afterWord (e : Engine) (w : Word) : Option Engine := after (step (withEngine e [.command w]))

/-! Well-formedness: the assembler's range checks (R43) refuse an immediate out of range. -/

theorem test_byte_out_of_range : (AsmLine.byte 256).wellFormed = false := by decide
theorem test_byte_in_range : (AsmLine.byte 255).wellFormed = true := by decide
theorem test_cmd_out_of_range : (AsmLine.cmd 65536).wellFormed = false := by decide
theorem test_cmd_in_range : (AsmLine.cmd 65535).wellFormed = true := by decide
theorem test_bytes_out_of_range : (AsmLine.bytes [1, 256]).wellFormed = false := by decide
theorem test_compute_out_of_range : (AsmLine.compute [300, 1]).wellFormed = false := by decide
theorem test_assembly_error : assemble (.byte 256) = none := by decide

/-! Decoding: words written out from 30_encoding.md section 6, and R92's word with two faults. -/

theorem test_decode_start : decode 0b0000000000000000#16 = .command .start := by decide
theorem test_decode_start_data : decode 0b0000000011111111#16 = .command .start := by decide
theorem test_decode_byte : decode 0b0000000111110010#16 = .command (.byte 0xF2) := by decide
theorem test_decode_finish_data : decode 0b0000001010101011#16 = .command .finish := by decide
theorem test_decode_op_three : decode 0b0000001100000000#16 = .illegal .opThree := by decide
theorem test_decode_rsv : decode 0b0000010100000000#16 = .illegal .rsvNotZero := by decide
theorem test_decode_two_reasons : isIllegal 0b0000011100000000#16 = true := by decide
theorem test_encode : [encode .start, encode (.byte 0xF2), encode .finish] = [0x0000, 0x01F2, 0x0200] := by decide
theorem test_table_word : decodeTableWord 16 0x01CD = some (.byte 0xCD) := by decide
theorem test_table_word_illegal : decodeTableWord 16 0x0300 = none := by decide
theorem test_fetch_word : after (step (State.reset.withFetchWord 16 0x01AB)) =
    some (eng 0 0xAB true 0xFFFF false false) := by decide

/-! Commands: the step vectors of 95_test_vectors.md section 5. -/

/-- V-S1. -/
theorem test_start_clears : afterWord (eng 0x1234 0x56 true 0xAAAA true true) 0x00FF =
    some (eng 0 0 false 0xAAAA false false) := by decide
/-- V-S3. -/
theorem test_byte_completes_word : afterWord (eng 0 0xAB true 0xFFFF false false) 0x01CD =
    some (eng 0xABCD 0 false 0xFFFF false false) := by decide
/-- V-S4. -/
theorem test_byte_end_around : afterWord (eng 0xFFFFFFFF 0 true 0xFFFF false false) 0x0101 =
    some (eng 1 0 false 0xFFFF false false) := by decide
/-- V-S7. -/
theorem test_finish_pads_high : afterWord (eng 0x102 0x03 true 0xFFFF false true) 0x02AB =
    some (eng 0 0 false 0xFBFD true true) := by decide
/-- V-S10. -/
theorem test_finish_end_around : afterWord (eng 0xFFFFFFFF 0xFF true 0xFFFF false false) 0x0200 =
    some (eng 0 0 false 0x00FF true false) := by decide
/-- V-S11. -/
theorem test_illegal_op : afterWord (eng 5 7 true 0x1111 true false) 0x0300 =
    some (eng 5 7 true 0x1111 true true) := by decide
/-- V-S13. -/
theorem test_illegal_rsv_delivers_no_byte : afterWord (eng 5 7 true 0xFFFF false false) 0x0500 =
    some (eng 5 7 true 0xFFFF false true) := by decide
/-- V-S16. -/
theorem test_reset_dominates :
    after (step (withEngine (eng 0x1234 0x56 true 0xAAAA true true) [.reset (some 0x0300)])) =
      some (eng 0 0 false 0xFFFF false false) := by decide
/-- The host reads after V-S7. -/
theorem test_reads : (readResult (withEngine (eng 0 0 false 0xFBFD true true) []),
    readStatus (withEngine (eng 0 0 false 0xFBFD true true) [])) = (0xFBFD, 0x0003) := by decide

/-! Arithmetic. -/

/-- V-A3, V-A5, V-A7. -/
theorem test_add32 : [add32 0xFFFF 1, add32 0xFFFFFFFF 0xFFFF, add32 0xFFFFFFFE 1] =
    [0x10000, 0xFFFF, 0xFFFFFFFF] := by decide
/-- V-K6, V-K10, V-K11. -/
theorem test_resOut : [resOut 0x1FFFF, resOut 0x12345678, resOut 0x2DEEF] = [0xFFFE, 0x9753, 0x210E] := by decide
/-- V-L5, a source vector. -/
theorem test_compute_even : compute [0x01, 0x00, 0xF2, 0x03, 0xF4, 0xF5, 0xF6, 0xF7] = 0x210E := by decide
/-- V-L3, a source vector. -/
theorem test_compute_odd : compute [0x01, 0x02, 0x03] = 0xFBFD := by decide
/-- V-L1, a source vector. -/
theorem test_compute_empty : compute [] = 0xFFFF := by decide

/-! Assembly text (R43, R44). -/

theorem test_text_byte : assembleText ['b', 'y', 't', 'e', ' ', '0', 'x', 'F', '2', ' ', ';', 'x'] =
    some [.write 0x01F2] := by decide
theorem test_text_compute : assembleText ['C', 'O', 'M', 'P', 'U', 'T', 'E', ' ', '1', ',', ' ', '2'] =
    some [.write 0x0000, .write 0x0101, .write 0x0102, .write 0x0200] := by decide
theorem test_text_read : assembleText ['R', 'D', ' ', 's', 't', 'a', 't', 'u', 's'] = some [.rdStatus] := by decide
theorem test_text_illegal : disassembleText 0x0500 = ['.', 'c', 'm', 'd', ' ', '0', 'x', '0', '5', '0', '0'] := by
  decide

/-! Witnesses: for each statement with hypotheses, a state and operands that meet them, clause by clause. -/

/-- `DecodeIsTotalWithCounts`, `RowsOfTheOpcodeMap`: the last word of each range and the first and last illegal ones. -/
theorem witness_decode_ranges :
    (0x0400#16).toNat / 2 ^ 10 ≠ 0 ∧ (0xFFFF#16).toNat / 2 ^ 10 ≠ 0 ∧
    ((0x00FF#16).toNat / 2 ^ 10 = 0 ∧ (0x00FF#16).toNat / 2 ^ 8 % 4 = 0) ∧
    ((0x01FF#16).toNat / 2 ^ 10 = 0 ∧ (0x01FF#16).toNat / 2 ^ 8 % 4 = 1) ∧
    ((0x02FF#16).toNat / 2 ^ 10 = 0 ∧ (0x02FF#16).toNat / 2 ^ 8 % 4 = 2) ∧
    ((0x03FF#16).toNat / 2 ^ 10 = 0 ∧ (0x03FF#16).toNat / 2 ^ 8 % 4 = 3) := by decide

/-- `DecodeEncodeRoundTrip`. -/
theorem witness_round_trip : (Instr.byte 0xFF).wellFormed = true := by decide

/-- `EncodeDecodeIsCanonical`, `AssemblerUndoesDisassembler`, `OneEventPerStep`, `ResValidRule`, `IllRule`. -/
theorem witness_decode_kinds :
    decode 0x00FF#16 = .command .start ∧ decode 0x01FF#16 = .command (.byte 0xFF) ∧
    decode 0x02FF#16 = .command .finish ∧ isIllegal 0x0300#16 = true ∧ isIllegal 0xFFFF#16 = true := by decide

/-- `StepRunsTheDecodedCommand`. -/
theorem witness_step_runs :
    (withEngine Engine.reset [.command 0x01F2, .reset none]).input = .command 0x01F2 :: [.reset none] ∧
    decode 0x01F2#16 = .command (.byte 0xF2) := by decide

/-- `NoInputHoldsAllState`. -/
theorem witness_no_input : State.reset.input = [] := by decide

/-- `CommandStepAsOneFunction`: the first and last word of each row, at both parities, and the first illegal word. -/
theorem witness_command_step :
    (withEngine Engine.reset [.command 0x01FF]).input = [.command 0x01FF] ∧
    (0x00FF#16).toNat < 0x100 ∧
    (0x100 ≤ (0x0100#16).toNat ∧ (0x01FF#16).toNat < 0x200) ∧
    Engine.reset.pendValid = false ∧ (eng 0xFFFFFFFF 0 true 0 false false).pendValid = true ∧
    (0x200 ≤ (0x0200#16).toNat ∧ (0x02FF#16).toNat < 0x300) ∧ 0x300 ≤ (0x0300#16).toNat := by decide

/-- `StartOpensANewComputation`. -/
theorem witness_start :
    (0x00FF#16 &&& 0xFF00#16 = 0x0000#16) ∧ (exec .start State.reset = .next State.reset) ∧
    HiddenIsReset State.reset ∧
    (∃ t u, exec .finish State.reset = .next t ∧ exec .start t = .next u) :=
  ⟨by decide, rfl, ⟨rfl, rfl, rfl⟩, _, _, rfl, rfl⟩

/-- `ByteAppendsToTheBuffer`. -/
theorem witness_byte :
    (0x01FF#16 &&& 0xFF00#16 = 0x0100#16) ∧ State.reset.pendValid = false ∧
    (withEngine (eng 0xFFFFFFFF 0xFF true 0 false false) []).pendValid = true ∧
    (∃ t u, exec .finish State.reset = .next t ∧ exec (.byte 0xFF) t = .next u) :=
  ⟨by decide, rfl, rfl, _, _, rfl, rfl⟩

/-- `ByteAppendsToTheBuffer`: a pending byte within 65537 words, and the rule's example state. -/
theorem witness_byte_word :
    HidesBuffer [0x00, 0x01, 0xF2] (withEngine (eng 0x00000001 0xF2 true 0 false false) []) ∧
    (withEngine (eng 0x00000001 0xF2 true 0 false false) []).pendValid = true ∧
    (fullWords [0x00#8, 0x01#8, 0xF2#8]).length < 65537 :=
  ⟨by constructor <;> decide, rfl, by decide⟩

/-- `FinishProducesTheChecksum`: the rule's example state. -/
theorem witness_finish_example :
    (withEngine (eng 0x00000102 0x03 true 0 false false) []).acc = 0x00000102 ∧
    (withEngine (eng 0x00000102 0x03 true 0 false false) []).pend = 0x03 ∧
    (withEngine (eng 0x00000102 0x03 true 0 false false) []).pendValid = true := by decide

/-- `FinishProducesTheChecksum`, with and without a pending byte, and twice in a row. -/
theorem witness_finish :
    (0x02FF#16 &&& 0xFF00#16 = 0x0200#16) ∧
    (∃ x a : Nat, x = (0xFFFFFFFF#32).toNat + (0xFF#8).toNat * 256 ∧
      a = (if true = true then x % 2 ^ 32 + x / 2 ^ 32 else (0xFFFFFFFF#32).toNat)) ∧
    (∃ t u, exec .finish State.reset = .next t ∧ exec .finish t = .next u) :=
  ⟨by decide, ⟨_, _, rfl, rfl⟩, _, _, rfl, rfl⟩

/-- `CommandFrames`. -/
theorem witness_frames :
    (∃ t, exec .start State.reset = .next t) ∧ (∃ t, exec (.byte 0x01) State.reset = .next t) ∧
    (∃ t, exec .finish State.reset = .next t) := ⟨⟨_, rfl⟩, ⟨_, rfl⟩, ⟨_, rfl⟩⟩

/-- `IllegalCommandSetsIllOnly`: each condition, and a command run with `ILL` set. -/
theorem witness_illegal :
    (0x0400#16).toNat / 2 ^ 10 ≠ 0 ∧ (0x0300#16).toNat / 2 ^ 8 % 4 = 3 ∧
    after (exec .finish (withEngine (eng 0 0 false 0 false true) [])) = some (eng 0 0 false 0xFFFF true true) := by
  decide

/-- `OneEventPerStep`, `ResValidRule`, `IllRule`, `FinishAfterResetKeepsResult`: the steps their hypotheses name. -/
theorem witness_offered_steps :
    (∃ t u, step (State.reset.offer (.reset (some 0x0300))) = .next t ∧ exec .finish t = .next u) ∧
    (∃ t, step (State.reset.offer (.command 0x0000)) = .next t) ∧
    (∃ t, step (State.reset.offer (.command 0x01FF)) = .next t) ∧
    (∃ t, step (State.reset.offer (.command 0x0200)) = .next t) ∧
    (∃ t, step (State.reset.offer (.command 0xFFFF)) = .next t) :=
  ⟨⟨_, _, rfl, rfl⟩, ⟨_, rfl⟩, ⟨_, rfl⟩, ⟨_, rfl⟩, ⟨_, rfl⟩⟩

/-- `IllegalCommandIsPrecise`, `NothingCrossesComputations`: two steps that run. -/
theorem witness_two_runs :
    (∃ t, runSteps 2 (withEngine (eng 1 0 false 0xAAAA true true) [.command 0x0300, .command 0x0200]) = .next t) ∧
    (∃ t, runSteps 2 (withEngine (eng 1 0 false 0xBBBB false false) [.command 0x0300, .command 0x0200]) = .next t) :=
  ⟨⟨_, rfl⟩, ⟨_, rfl⟩⟩

/-- `OnlyStartAndResetClearIll`: `START` and reset each clear a set `ILL`; an illegal word meets a set `ILL`. -/
theorem witness_clear_ill :
    afterWord (eng 0 0 false 0 false true) 0x0000 = some (eng 0 0 false 0 false false) ∧
    after (step (withEngine (eng 0 0 false 0 false true) [.reset none])) = some Engine.reset ∧
    isIllegal 0x0400#16 = true := by decide

/-- `OnlyFinishAndResetWriteResult`: `FINISH` and reset each change `RESULT`. -/
theorem witness_write_result :
    afterWord (eng 0 0 false 0 false false) 0x0200 = some (eng 0 0 false 0xFFFF true false) ∧
    after (step (withEngine (eng 0 0 false 0 false false) [.reset none])) = some Engine.reset := by decide

/-- `ResetWritesEveryElement`. -/
theorem witness_reset :
    (withEngine (eng 1 2 true 3 true true) [.reset (some 0x0101)]).input = .reset (some 0x0101) :: [] := by decide

/-- `PendIsZeroWhenNotValid`: a state that meets the invariant by its premise, and its step. -/
theorem witness_pend_canonical :
    PendCanonical (withEngine (eng 1 0x05 true 0 false false) [.command 0x0100]) ∧
    (∃ t, step (withEngine (eng 1 0x05 true 0 false false) [.command 0x0100]) = .next t) ∧
    HidesBuffer [0x05] (withEngine (eng 0 0x05 true 0 false false) []) :=
  ⟨fun h => absurd h (by decide), ⟨_, rfl⟩, by constructor <;> decide⟩

/-- `HiddenStateIsAFunctionOfTheBuffer`, `EngineRefinesTheChecksumFunction`: a buffer of three bytes, one pending. -/
theorem witness_represents :
    Represents ⟨[0x01, 0x02, 0x03], 0xFFFF, false, true⟩
      (withEngine (eng 0x102 0x03 true 0xFFFF false true) [.command 0x0200]) :=
  ⟨by constructor <;> decide, rfl, rfl, rfl⟩

/-- `ComputeSequenceGivesTheChecksum`: the words of a call, with and without `START`. -/
theorem witness_compute_call :
    computeWords [0x01] = [0x0000, 0x0101, 0x0200] ∧
    (withEngine (eng 9 9 true 9 true true) [.command 0x0000, .command 0x0101, .command 0x0200]).input =
      (computeWords [0x01]).map .command ++ [] ∧
    HiddenIsReset (withEngine (eng 0 0 false 9 true true) [.command 0x0101, .command 0x0200]) ∧
    (withEngine (eng 0 0 false 9 true true) [.command 0x0101, .command 0x0200]).input =
      (computeWords [0x01]).tail.map .command ++ [] := ⟨by decide, by decide, ⟨rfl, rfl, rfl⟩, by decide⟩

/-- `FinishGivesTheDeliveredBytes`: a byte, an illegal word, a byte. -/
theorem witness_delivered :
    HiddenIsReset State.reset ∧ (∀ w ∈ [0x0101#16, 0x0300#16, 0x0102#16], insideCall w = true) ∧
    decode 0x02AB#16 = .command .finish ∧
    deliveredBytes [0x0101#16, 0x0300#16, 0x0102#16] = [0x01, 0x02] :=
  ⟨⟨rfl, rfl, rfl⟩, List.all_eq_true.1 (by decide), by decide, by decide⟩

/-- `UsableResultIsTheChecksum`: the result of a call of one byte is usable. -/
theorem witness_usable :
    (∀ w ∈ [0x0101#16], insideCall w = true) ∧ decode 0x0200#16 = .command .finish ∧
    (∃ t, runSteps 2 (withEngine Engine.reset [.command 0x0101, .command 0x0200]) = .next t ∧
      usableResult t = some 0xFEFF) := ⟨List.all_eq_true.1 (by decide), by decide, _, rfl, by decide⟩

/-- `AccumulatorIsExactBelow32Bits`, `AccumulatorClosedForm`, `WordOrderDoesNotMatter`. -/
theorem witness_words :
    ([0xFFFF#16, 0x0001#16].map BitVec.toNat).sum ≤ 2 ^ 32 - 1 ∧
    ([0xFFFF#16, 0x0001#16].map BitVec.toNat).sum > 0 ∧ (([] : List Word).map BitVec.toNat).sum = 0 ∧
    [0x01#8].length ≤ 131074 ∧ [0xFFFF#16, 0x0001#16].Perm [0x0001#16, 0xFFFF#16] :=
  ⟨by simp, by simp, rfl, by simp, List.Perm.swap _ _ _⟩

/-- `AdderEndAroundCarry`, `FoldUnitClosedForm`, `ResultIsTheComplement`: zero and nonzero, and the multiples. -/
theorem witness_fold :
    add32 0 0 = 0 ∧ (0xFFFF0000#32 ≠ 0 ∧ (0xFFFF0000#32).toNat % 0xFFFF = 0) ∧
    fold2 0 = 0x0000 ∧ fold2 0xFFFFFFFF = 0xFFFF := by decide

/-- `ComputeByByteIndex`, `FoldLoopClosedForm`: the empty buffer, an all-zero one and a nonzero one. -/
theorem witness_word_sum :
    ([] : List Byte).length = 0 ∧ wordSum [0x00] = 0 ∧ wordSum [0x01, 0x02, 0x03] = 0x402 := by decide

/-- `SelfVerificationCorrected`, `FrameVerificationCorrected`, `ChecksumZeroIffFoldAllOnes`. -/
theorem witness_self_verification :
    compute [0x00, 0x01] = 0xFF#8 ++ 0xFE#8 ∧ compute [0x01, 0x02, 0x03] = 0xFB#8 ++ 0xFD#8 ∧
    compute ([0xAB, 0xCD] ++ [0x00, 0x00] ++ [0x12]) = 0x42#8 ++ 0x32#8 ∧ (∀ b ∈ [0x00#8], b = 0x00) := by decide

/-- `OrderSensitivityCorrected`: indices of the same parity, of different parity, and equal bytes (V-F19, V-F20). -/
theorem witness_swap :
    ([0x01#8, 0x02#8, 0x03#8, 0x04#8].set 0 0x03).set 2 0x01 = [0x03, 0x02, 0x01, 0x04] ∧
    ([0x01#8, 0x02#8, 0x03#8, 0x04#8].set 0 0x02).set 1 0x01 = [0x02, 0x01, 0x03, 0x04] ∧
    [0x05#8, 0x05#8][0]? = some 0x05 ∧ [0x05#8, 0x05#8][1]? = some 0x05 := by decide

/-- `ByteSwappedInputSwapsChecksum` (V-F19, V-F21). -/
theorem witness_byte_swap :
    (∀ i < 2, [0x02#8, 0x01#8, 0x04#8, 0x03#8][2 * i]? = [0x01#8, 0x02#8, 0x03#8, 0x04#8][2 * i + 1]? ∧
      [0x02#8, 0x01#8, 0x04#8, 0x03#8][2 * i + 1]? = [0x01#8, 0x02#8, 0x03#8, 0x04#8][2 * i]?) ∧
    compute [0x01, 0x02, 0x03, 0x04] = 0xFB#8 ++ 0xF9#8 ∧ compute [0x02, 0x01, 0x04, 0x03] = 0xF9#8 ++ 0xFB#8 := by decide

/-- `EvenPiecesConcatenate`. -/
theorem witness_even_piece : [0x01#8, 0x02#8].length % 2 = 0 := by decide

/-- `HostActionsAreSequential`. -/
theorem witness_host_run : ∃ t, hostRun [.write 0x0200, .rdStatus] State.reset = .next (t, [0x0001]) := ⟨_, rfl⟩

/-- `HiddenStateIsNotObserved`: states that differ in every hidden element. -/
theorem witness_not_observed :
    (withEngine (eng 1 2 true 3 true true) []).result = (withEngine (eng 0 0 false 3 true true) []).result ∧
    (withEngine (eng 1 2 true 3 true true) []).resValid = (withEngine (eng 0 0 false 3 true true) []).resValid ∧
    (withEngine (eng 1 2 true 3 true true) []).ill = (withEngine (eng 0 0 false 3 true true) []).ill := by decide

/-- `InstancesAreIndependent`: acting on the second of two instances. -/
theorem witness_platform :
    (Platform.mk [State.reset, State.reset]).act 1 (.write 0x0101) =
      some ⟨[State.reset, withEngine (eng 0 0x01 true 0xFFFF false false) []]⟩ := by decide

/-- `PlatformResetIsUniform`: there is an instance 0. -/
theorem witness_first_instance : 0 < Config.nEngines := Nat.succ_pos _

end Sys2Proof.Tests
end

namespace Sys2Proof.Machine

/-! SUPPORT. What the step of an offered word does, one equation per kind of word (43_engine_commands.md R77). -/

theorem isIllegal_iff (w : Word) : isIllegal w = true ↔ ∃ why, decode w = .illegal why := by
  unfold isIllegal
  cases decode w <;> simp

theorem acceptCommand_of_isIllegal {w : Word} (h : isIllegal w = true) (s : State) :
    acceptCommand w s = .next (raiseIllegalCommand s) := by
  obtain ⟨why, hd⟩ := (isIllegal_iff w).1 h
  exact acceptCommand_of_illegal hd s

theorem step_offer_reset (c : Option Word) (s : State) : step (s.offer (.reset c)) = .next (applyReset s) :=
  (step_offer _ s).trans (applyInput_reset c s)

theorem step_offer_start {w : Word} (h : decode w = .command .start) (s : State) :
    step (s.offer (.command w)) = .next (setIll false (setResValid false (clearHidden s))) :=
  (step_offer _ s).trans (acceptCommand_of_command h s)

theorem step_offer_byte {w : Word} {d : Byte} (h : decode w = .command (.byte d)) (s : State) :
    step (s.offer (.command w)) = .next (setResValid false (appendByte d s)) :=
  (step_offer _ s).trans (acceptCommand_of_command h s)

theorem step_offer_finish {w : Word} (h : decode w = .command .finish) (s : State) :
    step (s.offer (.command w)) =
      .next (setResValid true (clearHidden (setResult (resOut (foldInput s)) s))) :=
  (step_offer _ s).trans (acceptCommand_of_command h s)

theorem step_offer_illegal {w : Word} (h : isIllegal w = true) (s : State) :
    step (s.offer (.command w)) = .next (raiseIllegalCommand s) :=
  (step_offer _ s).trans (acceptCommand_of_isIllegal h s)

/-- An outcome has one next state, so an equation for a step fixes the state it answers. -/
theorem next_state_unique {o : Host.Outcome State Fault Refusal} {t u : State}
    (ht : o = .next t) (hu : o = .next u) : t = u :=
  Host.Outcome.next.inj (ht.symm.trans hu)

/-! SUPPORT. `PEND` and `PEND_VALID` through a step (10_state.md R13). -/

/-- Appending a byte leaves `PEND_VALID` at 0 only where it completes a word, and that clears `PEND` (R79). -/
theorem appendByte_pendCanonical (d : Byte) (s : State) : PendCanonical (appendByte d s) := by
  intro h
  have hodd : s.pendValid = true := by simpa using h
  simp [hodd]

/-- A step either leaves `PEND` and `PEND_VALID` alone or ends in a state that meets R13, whatever the state before. -/
theorem step_keeps_pend_or_pendCanonical {s t : State} (h : step s = .next t) :
    (t.pend = s.pend ∧ t.pendValid = s.pendValid) ∨ PendCanonical t := by
  obtain ⟨-, rfl⟩ | ⟨c, rest, -, rfl⟩ | ⟨w, rest, -, hw⟩ := step_cases h
  · exact .inl ⟨rfl, rfl⟩
  · exact .inr fun _ => rfl
  · obtain ⟨-, rfl⟩ | ⟨d, -, rfl⟩ | ⟨-, rfl⟩ | ⟨why, -, rfl⟩ := acceptCommand_cases hw
    · exact .inr fun _ => rfl
    · exact .inr (appendByte_pendCanonical d _)
    · exact .inr fun _ => rfl
    · exact .inl ⟨rfl, rfl⟩

theorem step_pendCanonical {s t : State} (hs : PendCanonical s) (h : step s = .next t) : PendCanonical t := by
  obtain ⟨hpend, hvalid⟩ | ht := step_keeps_pend_or_pendCanonical h
  · exact fun hv => hpend.trans (hs (hvalid.symm.trans hv))
  · exact ht

theorem step_pend_of_pendValid_cleared {s t : State} (h : step s = .next t) (hs : s.pendValid = true)
    (ht : t.pendValid = false) : t.pend = 0x00#8 := by
  obtain ⟨-, hvalid⟩ | hcanonical := step_keeps_pend_or_pendCanonical h
  · exact absurd (hs.symm.trans (hvalid.symm.trans ht)) (by decide)
  · exact hcanonical ht

theorem HidesBuffer.hidden_eq {B : List Byte} {s t : State} (hs : HidesBuffer B s) (ht : HidesBuffer B t) :
    s.acc = t.acc ∧ s.pend = t.pend ∧ s.pendValid = t.pendValid :=
  ⟨hs.acc.trans ht.acc.symm, hs.pend.trans ht.pend.symm, hs.pendValid.trans ht.pendValid.symm⟩

/-- Settles O26: a step that does not leave `PEND` and `PEND_VALID` alone ends with `PEND` canonical. -/
theorem pendIsZeroWhenNotValid : Obligations.PendIsZeroWhenNotValid :=
  ⟨fun _ _ hs h => step_pendCanonical hs h,
    fun _ _ h hs ht => step_pend_of_pendValid_cleared h hs ht,
    fun _ _ _ hs ht => hs.hidden_eq ht⟩

/-- Settles O20, one clause per kind of step. -/
theorem resValidRule : Obligations.ResValidRule := by
  intro s t e h
  constructor
  · rintro c rfl
    obtain rfl := next_state_unique h (step_offer_reset c s)
    exact applyReset_resValid s
  · rintro w rfl
    refine ⟨fun hd => ?finish, fun hd => ?start, fun d hd => ?byte, fun hd => ?illegal⟩
    case finish =>
      obtain rfl := next_state_unique h (step_offer_finish hd s)
      exact setResValid_resValid _ _
    case start =>
      obtain rfl := next_state_unique h (step_offer_start hd s)
      simp
    case byte =>
      obtain rfl := next_state_unique h (step_offer_byte hd s)
      simp
    case illegal =>
      obtain rfl := next_state_unique h (step_offer_illegal hd s)
      exact raiseIllegalCommand_resValid s

/-- Settles O21, one clause per kind of step. -/
theorem illRule : Obligations.IllRule := by
  intro s t e h
  constructor
  · rintro c rfl
    obtain rfl := next_state_unique h (step_offer_reset c s)
    exact applyReset_ill s
  · rintro w rfl
    refine ⟨fun hd => ?start, fun d hd => ?byte, fun hd => ?finish, fun hd => ?illegal⟩
    case start =>
      obtain rfl := next_state_unique h (step_offer_start hd s)
      exact setIll_ill _ _
    case byte =>
      obtain rfl := next_state_unique h (step_offer_byte hd s)
      simp
    case finish =>
      obtain rfl := next_state_unique h (step_offer_finish hd s)
      simp
    case illegal =>
      obtain rfl := next_state_unique h (step_offer_illegal hd s)
      exact raiseIllegalCommand_ill s

end Sys2Proof.Machine

namespace Sys2Proof.Machine

/-! SUPPORT. The rows of the opcode map by a word's value and by its mask (30_encoding.md R39, R40). -/

theorem decode_eq_start_iff (w : Word) : decode w = .command .start ↔ w.toNat < 256 := by
  rcases decode_cases w with h | h | h | h | h <;> simp [h] <;> omega

theorem decode_eq_byte_iff (w : Word) (d : Byte) :
    decode w = .command (.byte d) ↔ (256 ≤ w.toNat ∧ w.toNat < 512) ∧ dataField w = d := by
  rcases decode_cases w with h | h | h | h | h <;> simp [h] <;> omega

theorem exists_decode_eq_byte_iff (w : Word) :
    (∃ d, decode w = .command (.byte d)) ↔ 256 ≤ w.toNat ∧ w.toNat < 512 := by
  simp [decode_eq_byte_iff]

theorem decode_eq_finish_iff (w : Word) : decode w = .command .finish ↔ 512 ≤ w.toNat ∧ w.toNat < 768 := by
  rcases decode_cases w with h | h | h | h | h <;> simp [h] <;> omega

theorem isIllegal_iff_le_toNat (w : Word) : isIllegal w = true ↔ 768 ≤ w.toNat := by
  rw [isIllegal_iff]
  rcases decode_cases w with h | h | h | h | h <;> simp [h] <;> omega

/-- The mask of R39 keeps the upper eight bits: it drops the word's value modulo 256. -/
theorem and_mask_toNat (w : Word) : (w &&& 0xFF00#16).toNat = w.toNat / 256 * 256 := by
  have hw := w.isLt
  have hdiv : (w.toNat &&& 0xFF00) / 2 ^ 8 = w.toNat / 2 ^ 8 % 2 ^ 8 := by
    rw [Nat.and_div_two_pow]
    exact Nat.and_two_pow_sub_one_eq_mod _ 8
  have hmod : (w.toNat &&& 0xFF00) % 2 ^ 8 = 0 := by
    rw [Nat.and_mod_two_pow]
    exact Nat.and_zero _
  have hand : (w &&& 0xFF00#16).toNat = w.toNat &&& 0xFF00 := BitVec.toNat_and _ _
  omega

/-- A word matches the row of `m` exactly when its value lies among the 256 from `m` up. -/
theorem and_mask_eq_iff (w m : Word) (hm : m.toNat % 256 = 0) :
    w &&& 0xFF00#16 = m ↔ m.toNat ≤ w.toNat ∧ w.toNat < m.toNat + 256 := by
  rw [← BitVec.toNat_inj, and_mask_toNat]
  omega

/-- Settles O1: mask, decoder and word range of each row say one thing about the word's value. -/
theorem rowsOfTheOpcodeMap : Obligations.RowsOfTheOpcodeMap := by
  intro w
  have hmask (m : Word) (hm : m.toNat % 256 = 0) := and_mask_eq_iff w m hm
  rw [hmask _ rfl, hmask _ rfl, hmask _ rfl, hmask _ rfl, decode_eq_start_iff, exists_decode_eq_byte_iff,
    decode_eq_finish_iff, isIllegal_iff_le_toNat]
  simp only [BitVec.toNat_ofNat, true_and]
  omega

theorem dataField_eq_ofNat_mod (w : Word) : dataField w = BitVec.ofNat 8 (w.toNat % 2 ^ 8) := by
  apply BitVec.eq_of_toNat_eq
  simp [dataField_toNat]

/-- A property of words that holds exactly on the `c` values from `a` up holds of `c` words. -/
theorem card_words_of_iff_range (P : Word → Prop) [DecidablePred fun n => P (BitVec.ofNat 16 n)] {a c : Nat}
    (hc : a + c ≤ 65536) (hP : ∀ w, P w ↔ a ≤ w.toNat ∧ w.toNat < a + c) :
    ((Finset.range 65536).filter fun n => P (BitVec.ofNat 16 n)).card = c := by
  have hIco : ((Finset.range 65536).filter fun n => P (BitVec.ofNat 16 n)) = Finset.Ico a (a + c) := by
    ext n
    simp only [Finset.mem_filter, Finset.mem_range, Finset.mem_Ico, hP, BitVec.toNat_ofNat]
    omega
  rw [hIco, Nat.card_Ico, Nat.add_sub_cancel_left]

/-- Settles O2: the cases of R40 and the counts both come from the word range of each result. -/
theorem decodeIsTotalWithCounts : Obligations.DecodeIsTotalWithCounts := by
  refine ⟨fun w => ⟨fun hr => ?rsv, fun hr ho => ?start, fun hr ho => ?byte, fun hr ho => ?finish,
    fun hr ho => ?opThree⟩, ?starts, ?bytes, ?finishes, ?illegals⟩
  case rsv => exact (isIllegal_iff_le_toNat w).2 (by omega)
  case start => exact (decode_eq_start_iff w).2 (by omega)
  case byte => exact (decode_eq_byte_iff w _).2 ⟨by omega, dataField_eq_ofNat_mod w⟩
  case finish => exact (decode_eq_finish_iff w).2 (by omega)
  case opThree => exact (isIllegal_iff_le_toNat w).2 (by omega)
  case starts =>
    exact card_words_of_iff_range (fun w => decode w = .command .start) (a := 0) (by omega) fun w => by
      simp [decode_eq_start_iff]
  case bytes =>
    exact card_words_of_iff_range (fun w => ∃ d, decode w = .command (.byte d)) (by omega)
      exists_decode_eq_byte_iff
  case finishes =>
    exact card_words_of_iff_range (fun w => decode w = .command .finish) (by omega) decode_eq_finish_iff
  case illegals =>
    exact card_words_of_iff_range (fun w => isIllegal w = true) (a := 768) (by omega) fun w => by
      simp [isIllegal_iff_le_toNat, w.isLt]

end Sys2Proof.Machine

namespace Sys2Proof.Machine

/-! SUPPORT. The reference function without its recursion: the word sum by byte index, the bound of the fold and the
value of `compute` (40_checksum_function.md R47 to R52). -/

/-- The full words are the byte pairs at `2i` and `2i + 1` (R47). -/
theorem sum_fullWords (B : List Byte) :
    ((fullWords B).map BitVec.toNat).sum =
      ∑ i ∈ Finset.range (B.length / 2), ((B.getD (2 * i) 0).toNat * 256 + (B.getD (2 * i + 1) 0).toNat) := by
  induction B using fullWords.induct with
  | case1 => rfl
  | case2 b => simp
  | case3 hi lo B ih =>
    have hlen : (hi :: lo :: B).length / 2 = B.length / 2 + 1 := by
      simp only [List.length_cons]
      omega
    rw [hlen, Finset.sum_range_succ', fullWords_pair, List.map_cons, List.sum_cons, ih, pairWord_toNat,
      Nat.add_comm]
    rfl

/-- The trailing byte is the last one of an odd-length buffer, and stands in the high half of the pad word (R48). -/
theorem padValue_eq (B : List Byte) :
    padValue B = if B.length % 2 = 1 then (B.getD (B.length - 1) 0).toNat * 256 else 0 := by
  induction B using trailingByte.induct with
  | case1 => rfl
  | case2 b => rfl
  | case3 hi lo B ih =>
    have hpad : padValue (hi :: lo :: B) = padValue B := rfl
    have hlen : (hi :: lo :: B).length = B.length + 2 := rfl
    rw [hpad, ih, hlen, Nat.add_mod_right]
    split
    case isTrue hodd =>
      obtain ⟨m, hm⟩ : ∃ m, B.length = m + 1 := ⟨B.length - 1, by omega⟩
      rw [hm]
      rfl
    case isFalse => rfl

/-- The loop stops only on a value that fits 16 bits (R50). -/
theorem fold_le (x : Nat) : fold x ≤ 0xFFFF := by
  induction x using Nat.strong_induction_on with
  | _ x ih =>
    rw [fold_eq]
    split
    · exact ih _ (foldPass_lt x ‹_›)
    · omega

/-- The empty buffer's own case of `compute` agrees with the general one: its word sum is 0 (R52). -/
theorem compute_eq (B : List Byte) : compute B = BitVec.ofNat 16 (0xFFFF - fold (wordSum B)) := by
  cases B <;> rfl

theorem compute_toNat (B : List Byte) : (compute B).toNat = 0xFFFF - fold (wordSum B) := by
  rw [compute_eq, BitVec.toNat_ofNat]
  exact Nat.mod_eq_of_lt (by omega)

/-- Settles O43: the indexed sum is the word sum, and the fold of any sum fits 16 bits. -/
theorem computeByByteIndex : Obligations.ComputeByByteIndex := by
  rintro B n s rfl hs
  have hsum : s = wordSum B := by rw [hs, wordSum, sum_fullWords, padValue_eq]
  refine ⟨fun hn => ?empty, ?value, fold_le s⟩
  case empty =>
    obtain rfl := List.length_eq_zero_iff.1 hn
    rfl
  case value => rw [compute_toNat, hsum]

end Sys2Proof.Machine

namespace Sys2Proof.Machine

/-! SUPPORT. The end-around sum as a value: its bound, its neutral word and its only zero
(41_ones_complement_adder.md R65). -/

/-- The end-around addition never carries out again (R66): its exact sum is the value of a 32-bit word. -/
theorem endAroundSum_lt (acc : Acc) (w : Word) :
    (acc.toNat + w.toNat) % 2 ^ 32 + (acc.toNat + w.toNat) / 2 ^ 32 < 2 ^ 32 := by
  rw [← add32_toNat]
  exact (add32 acc w).isLt

@[simp] theorem add32_zero (acc : Acc) : add32 acc 0 = acc := by
  apply BitVec.eq_of_toNat_eq
  have hw : (0 : Word).toNat = 0 := rfl
  rw [add32_toNat, hw, Nat.add_zero, Nat.mod_eq_of_lt acc.isLt, Nat.div_eq_of_lt acc.isLt, Nat.add_zero]

/-- Both halves of the end-around sum are 0 only where the exact sum is, so a carry never leaves `ACC = 0`. -/
theorem add32_eq_zero_iff (acc : Acc) (w : Word) : add32 acc w = 0 ↔ acc = 0 ∧ w = 0 := by
  constructor
  · intro h
    have hsum := add32_toNat acc w
    have hzero : (add32 acc w).toNat = 0 := congrArg BitVec.toNat h
    exact ⟨BitVec.eq_of_toNat_eq (show acc.toNat = 0 by omega), BitVec.eq_of_toNat_eq (show w.toNat = 0 by omega)⟩
  · rintro ⟨rfl, rfl⟩
    exact add32_zero 0

/-- Settles O35: the value of `ADD32` gives the bound and the zero case; the rule's four corner cases are evaluated. -/
theorem adderEndAroundCarry : Obligations.AdderEndAroundCarry := by
  refine ⟨?value, add32_zero, fun acc w => (add32_eq_zero_iff acc w).1, by decide⟩
  case value =>
    rintro acc w x rfl
    exact ⟨endAroundSum_lt acc w, add32_toNat acc w⟩

end Sys2Proof.Machine

namespace Sys2Proof.Machine

/-! SUPPORT. The complement bit by bit and at a known folded sum (42_carry_fold_unit.md R75). -/

theorem resOut_getLsbD (x : Acc) {i : Nat} (hi : i < 16) : (resOut x).getLsbD i = !(fold2 x).getLsbD i := by
  rw [resOut, BitVec.getLsbD_not, decide_eq_true hi, Bool.true_and]

theorem resOut_of_fold2_eq {x : Acc} {z : Word} (h : fold2 x = z) : resOut x = ~~~ z :=
  congrArg (~~~ ·) h

/-- Settles O42: the subtraction form, the inverted bits, and the complements of `0x0000` and `0xFFFF`. -/
theorem resultIsTheComplement : Obligations.ResultIsTheComplement := by
  intro x
  refine ⟨resOut_toNat x, fun _ hi => resOut_getLsbD x hi, fun hzero => ?zero, fun hones => ?ones⟩
  case zero => exact resOut_of_fold2_eq hzero
  case ones => exact resOut_of_fold2_eq hones

end Sys2Proof.Machine

namespace Sys2Proof.Machine

/-! SUPPORT. Each command as one update of the state before it (43_engine_commands.md R77 to R80). -/

theorem exec_start_eq (s : State) :
    exec .start s = .next { s with acc := 0, pend := 0, pendValid := false, resValid := false, ill := false } := rfl

theorem exec_byte_even (d : Byte) {s : State} (h : s.pendValid = false) :
    exec (.byte d) s = .next { s with pend := d, pendValid := true, resValid := false } := by
  rw [exec_byte, appendByte_even d s h]
  rfl

theorem exec_byte_odd (d : Byte) {s : State} (h : s.pendValid = true) :
    exec (.byte d) s = .next { s with
      acc := add32 s.acc (pairWord s.pend d), pend := 0, pendValid := false, resValid := false } := by
  rw [exec_byte, appendByte_odd d s h]
  rfl

theorem exec_finish_eq (s : State) :
    exec .finish s = .next { s with
      acc := 0, pend := 0, pendValid := false, result := resOut (foldInput s), resValid := true } := rfl

/-- `a` of R80 as a natural: the pad word goes in by the end-around sum, and only if a byte is pending. -/
theorem foldInput_toNat (s : State) :
    (foldInput s).toNat =
      if s.pendValid = true then
        (s.acc.toNat + s.pend.toNat * 256) % 2 ^ 32 + (s.acc.toNat + s.pend.toNat * 256) / 2 ^ 32
      else s.acc.toNat := by
  rw [foldInput]
  split
  · rw [add32_toNat, padWord_toNat]
  · rfl

theorem acceptCommand_total (w : Word) (s : State) : ∃ t, acceptCommand w s = .next t := by
  cases hd : decode w with
  | illegal why => exact ⟨_, acceptCommand_of_illegal hd s⟩
  | command i =>
    rw [acceptCommand_of_command hd]
    cases i with
    | start => exact ⟨_, exec_start s⟩
    | byte d => exact ⟨_, exec_byte d s⟩
    | finish => exact ⟨_, exec_finish s⟩

/-- Settles O11: the word's range fixes what it decodes to, and each clause reads that command's update. -/
theorem commandStepAsOneFunction : Obligations.CommandStepAsOneFunction := by
  intro s w rest hin
  obtain ⟨t, ht⟩ := acceptCommand_total w (s.withInput rest)
  have hexec {i : Instr} (hd : decode w = .command i) : exec i (s.withInput rest) = .next t :=
    (acceptCommand_of_command hd _).symm.trans ht
  have hbyte (hlo : 0x100 ≤ w.toNat) (hhi : w.toNat < 0x200) :
      decode w = .command (.byte (BitVec.ofNat 8 (w.toNat % 0x100))) :=
    (decode_eq_byte_iff w _).2 ⟨⟨hlo, hhi⟩, dataField_eq_ofNat_mod w⟩
  refine ⟨t, (step_of_input hin).trans ht, acceptCommand_input ht, fun hw => ?start, fun hlo hhi hv => ?even,
    fun hlo hhi hv => ?odd, fun hlo hhi => ?finish, fun hw => ?illegal⟩
  case start =>
    obtain rfl := next_state_unique (hexec ((decode_eq_start_iff w).2 hw)) (exec_start_eq _)
    rfl
  case even =>
    obtain rfl := next_state_unique (hexec (hbyte hlo hhi)) (exec_byte_even _ hv)
    rfl
  case odd =>
    obtain rfl := next_state_unique (hexec (hbyte hlo hhi)) (exec_byte_odd _ hv)
    refine ⟨?_, rfl⟩
    simp [add32_toNat, pairWord_toNat]
  case finish =>
    obtain rfl := next_state_unique (hexec ((decode_eq_finish_iff w).2 ⟨hlo, hhi⟩)) (exec_finish_eq _)
    refine ⟨?_, rfl⟩
    rintro a y ha rfl
    have hfold : (foldInput (s.withInput rest)).toNat = a := (foldInput_toNat _).trans ha.symm
    rw [resOut_toNat, fold2_toNat, hfold]
    rfl
  case illegal =>
    obtain rfl := next_state_unique ht (acceptCommand_of_isIllegal ((isIllegal_iff_le_toNat w).2 hw) _)
    rfl

end Sys2Proof.Machine

namespace Sys2Proof.Machine

/-! SUPPORT. `BYTE` (43_engine_commands.md R79): its row's operand, the end-around sum as a 32-bit value, and how far
`ACC` can have grown after a number of words. -/

theorem decode_byte_of_and_mask {w : Word} (h : w &&& 0xFF00#16 = 0x0100#16) :
    decode w = .command (.byte (BitVec.ofNat 8 w.toNat)) := by
  have hdata : dataField w = BitVec.ofNat 8 w.toNat := by
    apply BitVec.eq_of_toNat_eq
    rw [dataField_toNat, BitVec.toNat_ofNat]
  exact (decode_eq_byte_iff w _).2 ⟨(and_mask_eq_iff w _ rfl).1 h, hdata⟩

theorem add32_eq_ofNat (acc : Acc) (w : Word) :
    add32 acc w = BitVec.ofNat 32 ((acc.toNat + w.toNat) % 2 ^ 32 + (acc.toNat + w.toNat) / 2 ^ 32) := by
  rw [← add32_toNat, BitVec.ofNat_toNat, BitVec.setWidth_eq]

/-- The end-around carry never makes the sum larger than the exact one. -/
theorem add32_toNat_le (acc : Acc) (w : Word) : (add32 acc w).toNat ≤ acc.toNat + w.toNat := by
  rw [add32_toNat]
  omega

theorem accSum_toNat_le (ws : List Word) : (accSum ws).toNat ≤ 0xFFFF * ws.length := by
  induction ws using List.reverseRecOn with
  | nil => simp
  | append_singleton ws w ih =>
    have hstep := add32_toNat_le (accSum ws) w
    have hw := w.isLt
    rw [accSum_append, List.length_append, List.length_singleton]
    omega

/-- Settles O13: the two parities are the update of `BYTE`; `ACC` has room for a 65537th word. -/
theorem byteAppendsToTheBuffer : Obligations.ByteAppendsToTheBuffer := by
  refine ⟨fun w hw => decode_byte_of_and_mask hw, fun d s hv => exec_byte_even d hv, ?odd, ?afterFinish, ?noCarry,
    ?ruleExample, rfl⟩
  case odd =>
    rintro d s x hv rfl
    rw [exec_byte_odd d hv, add32_eq_ofNat, pairWord_toNat]
  case afterFinish =>
    intro d s t u ht hu
    obtain rfl := next_state_unique ht (exec_finish_eq s)
    obtain rfl := next_state_unique hu (exec_byte_even d rfl)
    exact ⟨rfl, rfl, rfl⟩
  case noCarry =>
    intro B d s hB _ hlen
    have hacc : s.acc.toNat ≤ 0xFFFF * (fullWords B).length := hB.acc ▸ accSum_toNat_le (fullWords B)
    have hpend := s.pend.isLt
    have hd := d.isLt
    omega
  case ruleExample =>
    intro s hacc hpend hv
    have hsum : add32 s.acc (pairWord s.pend 0x03) = 0x0000F204 := by
      rw [hacc, hpend]
      decide
    rw [exec_byte_odd _ hv, hsum]

end Sys2Proof.Machine

namespace Sys2Proof.Machine

/-! SUPPORT. The two stages of the fold unit are the loop of R50 on every 32-bit value (42_carry_fold_unit.md R71,
R72). -/

/-- A pass never changes where the loop ends: on a value that already fits 16 bits it changes nothing. -/
theorem fold_foldPass (x : Nat) : fold (foldPass x) = fold x := by
  by_cases hbig : x > 0xFFFF
  · rw [fold_eq x, if_pos hbig]
  · have hsame : foldPass x = x := by
      rw [foldPass_eq]
      omega
    rw [hsame]

theorem fold_of_le {x : Nat} (h : x ≤ 0xFFFF) : fold x = x := by
  rw [fold_eq, if_neg (by omega)]

theorem fold2_toNat_eq_foldPass (x : Acc) : (fold2 x).toNat = foldPass (foldPass x.toNat) := by
  rw [fold2_toNat, foldPass_eq, foldPass_eq]

theorem fold2_toNat_eq_fold (x : Acc) : (fold2 x).toNat = fold x.toNat := by
  have hfits : foldPass (foldPass x.toNat) ≤ 0xFFFF := by
    rw [← fold2_toNat_eq_foldPass]
    exact Nat.le_of_lt_succ (fold2 x).isLt
  calc (fold2 x).toNat = foldPass (foldPass x.toNat) := fold2_toNat_eq_foldPass x
    _ = fold (foldPass (foldPass x.toNat)) := (fold_of_le hfits).symm
    _ = fold x.toNat := by rw [fold_foldPass, fold_foldPass]

theorem resOut_eq_ofNat_fold (x : Acc) : resOut x = BitVec.ofNat 16 (0xFFFF - fold x.toNat) := by
  rw [← fold2_toNat_eq_fold, ← resOut_toNat, BitVec.ofNat_toNat, BitVec.setWidth_eq]

/-! SUPPORT. With no computation in progress the hidden state is already what `START` and `FINISH` leave
(10_state.md R22). -/

theorem clearHidden_of_hiddenIsReset {s : State} (h : HiddenIsReset s) : clearHidden s = s := by
  obtain ⟨hacc, hpend, hvalid⟩ := h
  exact State.eq_of_fields hacc.symm hpend.symm hvalid.symm rfl rfl rfl rfl

theorem foldInput_of_hiddenIsReset {s : State} (h : HiddenIsReset s) : foldInput s = 0 := by
  obtain ⟨hacc, -, hvalid⟩ := h
  simp [foldInput, hacc, hvalid]

theorem hiddenIsReset_of_exec_finish {s t : State} (h : exec .finish s = .next t) : HiddenIsReset t := by
  obtain rfl := next_state_unique h (exec_finish_eq s)
  exact ⟨rfl, rfl, rfl⟩

theorem exec_finish_of_hiddenIsReset {s : State} (h : HiddenIsReset s) :
    exec .finish s = .next { s with result := 0xFFFF, resValid := true } := by
  have hres : resOut (foldInput s) = 0xFFFF := by
    rw [foldInput_of_hiddenIsReset h]
    decide
  have hclear : clearHidden (setResult 0xFFFF s) = setResult 0xFFFF s := clearHidden_of_hiddenIsReset h
  rw [exec_finish, hres, hclear]
  rfl

/-- Settles O14: `FINISH` folds `a` by the two stages, which are the loop; an empty buffer folds to 0. -/
theorem finishProducesTheChecksum : Obligations.FinishProducesTheChecksum := by
  refine ⟨fun w hw => (decode_eq_finish_iff w).2 ((and_mask_eq_iff w _ rfl).1 hw), ?effect,
    fun s hs => exec_finish_of_hiddenIsReset hs, ?twice, ?ruleExample⟩
  case effect =>
    rintro s x a rfl ha
    have hfold : (foldInput s).toNat = a := (foldInput_toNat s).trans ha.symm
    rw [exec_finish_eq, resOut_eq_ofNat_fold, hfold]
  case twice =>
    intro s t u ht hu
    obtain rfl := next_state_unique hu (exec_finish_of_hiddenIsReset (hiddenIsReset_of_exec_finish ht))
    rfl
  case ruleExample =>
    intro s hacc hpend hv
    have hres : resOut (foldInput s) = 0xFBFD := by
      rw [foldInput, if_pos hv, hacc, hpend]
      decide
    rw [exec_finish_eq, hres]

/-- Settles O12: `START` is one update, which leaves a cleared hidden state and two cleared flags as they are. -/
theorem startOpensANewComputation : Obligations.StartOpensANewComputation := by
  refine ⟨fun w hw => (decode_eq_start_iff w).2 ((and_mask_eq_iff w _ rfl).1 hw).2, exec_start_eq, ?twice, ?noBuffer,
    ?afterFinish⟩
  case twice =>
    intro s t ht
    obtain rfl := next_state_unique ht (exec_start_eq s)
    rfl
  case noBuffer =>
    intro s hs
    rw [exec_start, clearHidden_of_hiddenIsReset hs]
    rfl
  case afterFinish =>
    intro s t u _ hu
    obtain rfl := next_state_unique hu (exec_start_eq t)
    exact ⟨rfl, rfl⟩

end Sys2Proof.Machine

namespace Sys2Proof.Machine

/-! SUPPORT. `ILL` through a step (10_state.md R19, 60_exceptions.md R90, R93, R94): what raises it, what clears it, and
that nothing else in a step depends on it. -/

/-- R90's two conditions, read from the fields of the word, are what R42 calls illegal. -/
theorem isIllegal_iff_rsv_or_op (w : Word) :
    isIllegal w = true ↔ w.toNat / 2 ^ 10 ≠ 0 ∨ w.toNat / 2 ^ 8 % 4 = 3 := by
  rw [isIllegal_iff_le_toNat]
  omega

theorem statusWord_getLsbD_one : ∀ ill resValid : Bool, (statusWord ill resValid).getLsbD 1 = ill := by decide

theorem readStatus_getLsbD_one (s : State) : (readStatus s).getLsbD 1 = s.ill := statusWord_getLsbD_one _ _

theorem exec_ill_of_ill {i : Instr} {s t : State} (h : exec i s = .next t) (ht : t.ill = true) : s.ill = true := by
  cases i with
  | start =>
    obtain rfl := next_state_unique h (exec_start s)
    simp at ht
  | byte d =>
    obtain rfl := next_state_unique h (exec_byte d s)
    simpa using ht
  | finish =>
    obtain rfl := next_state_unique h (exec_finish s)
    simpa using ht

theorem raiseIllegalCommand_of_ill {s : State} (h : s.ill = true) : raiseIllegalCommand s = s :=
  State.eq_of_fields rfl rfl rfl rfl rfl h.symm rfl

theorem acceptCommand_start_of_ill_cleared {w : Word} {s t : State} (h : acceptCommand w s = .next t)
    (hs : s.ill = true) (ht : t.ill = false) : decode w = .command .start := by
  obtain ⟨hd, -⟩ | ⟨d, -, rfl⟩ | ⟨-, rfl⟩ | ⟨why, -, rfl⟩ := acceptCommand_cases h
  · exact hd
  · simp [hs] at ht
  · simp [hs] at ht
  · simp at ht

theorem appendByte_setIll (d : Byte) (v : Bool) (s : State) :
    appendByte d (setIll v s) = setIll v (appendByte d s) := by
  cases hv : s.pendValid with
  | false =>
    rw [appendByte_even d s hv, appendByte_even d (setIll v s) hv]
    rfl
  | true =>
    rw [appendByte_odd d s hv, appendByte_odd d (setIll v s) hv]
    rfl

/-- Accepting a word reads `ILL` for nothing but `ILL`. -/
theorem acceptCommand_setIll {w : Word} {s t : State} (v : Bool) (h : acceptCommand w s = .next t) :
    ∃ v' : Bool, acceptCommand w (setIll v s) = .next (setIll v' t) := by
  obtain ⟨hd, rfl⟩ | ⟨d, hd, rfl⟩ | ⟨hd, rfl⟩ | ⟨why, hd, rfl⟩ := acceptCommand_cases h
  · exact ⟨false, acceptCommand_of_command hd _⟩
  · refine ⟨v, ?_⟩
    rw [acceptCommand_of_command hd, exec_byte, appendByte_setIll]
    rfl
  · exact ⟨v, acceptCommand_of_command hd _⟩
  · exact ⟨true, acceptCommand_of_illegal hd _⟩

theorem step_setIll_of_input {s : State} {e : StepInput} {rest : List StepInput} (v : Bool) (h : s.input = e :: rest) :
    step (setIll v s) = applyInput e (setIll v (s.withInput rest)) :=
  step_of_input (s := setIll v s) h

theorem step_setIll {s t : State} (v : Bool) (h : step s = .next t) :
    ∃ v' : Bool, step (setIll v s) = .next (setIll v' t) := by
  obtain ⟨hin, rfl⟩ | ⟨c, rest, hin, rfl⟩ | ⟨w, rest, hin, hw⟩ := step_cases h
  · exact ⟨v, step_idle hin⟩
  · exact ⟨false, step_setIll_of_input v hin⟩
  · obtain ⟨v', hv'⟩ := acceptCommand_setIll v hw
    exact ⟨v', (step_setIll_of_input v hin).trans hv'⟩

/-- Nothing stops a step (R53, R89). -/
theorem step_total (s : State) : ∃ t, step s = .next t := by
  cases hin : s.input with
  | nil => exact ⟨s, step_idle hin⟩
  | cons e rest =>
    rw [step_of_input hin]
    cases e with
    | reset c => exact ⟨_, applyInput_reset c _⟩
    | command w => exact acceptCommand_total w _

/-- The run of `k` steps carries the difference in `ILL` along, and no other. -/
theorem runSteps_setIll (k : Nat) {s t : State} (v : Bool) (h : runSteps k s = .next t) :
    ∃ v' : Bool, runSteps k (setIll v s) = .next (setIll v' t) := by
  induction k generalizing s v with
  | zero =>
    obtain rfl := next_state_unique h (runSteps_zero s)
    exact ⟨v, runSteps_zero _⟩
  | succ k ih =>
    obtain ⟨u, hu⟩ := step_total s
    obtain ⟨x, hx⟩ := step_setIll v hu
    rw [runSteps_succ hu] at h
    rw [runSteps_succ hx]
    exact ih x h

/-- Settles O18: by induction on the number of steps, each of which keeps a difference in `ILL` to `ILL`. -/
theorem illegalCommandIsPrecise : Obligations.IllegalCommandIsPrecise :=
  ⟨fun s _ hw => acceptCommand_of_isIllegal hw s, fun k _ _ v h => runSteps_setIll k v h⟩

/-- Settles O19, one case per kind of step; raising a set `ILL` gives the same state back. -/
theorem onlyStartAndResetClearIll : Obligations.OnlyStartAndResetClearIll := by
  constructor
  · intro s t h hs ht
    obtain ⟨-, rfl⟩ | ⟨c, rest, hin, -⟩ | ⟨w, rest, hin, hw⟩ := step_cases h
    · simp [hs] at ht
    · exact ⟨rest, .inl ⟨c, hin⟩⟩
    · exact ⟨rest, .inr ⟨w, hin, acceptCommand_start_of_ill_cleared hw hs ht⟩⟩
  · intro s w hs hw
    rw [step_offer_illegal hw, raiseIllegalCommand_of_ill hs]

/-- Settles O16: each condition makes the word illegal, and raising the event is one update of `ILL`. -/
theorem illegalCommandSetsIllOnly : Obligations.IllegalCommandSetsIllOnly :=
  ⟨fun s w hw => ⟨step_offer_illegal ((isIllegal_iff_rsv_or_op w).2 hw) s, readStatus_getLsbD_one _⟩,
    fun _ _ _ h ht => exec_ill_of_ill h ht⟩

/-- Settles O17: every illegal word raises the one event, and reset never looks at the word it discards. -/
theorem oneEventPerStep : Obligations.OneEventPerStep := by
  refine ⟨fun w v s hw hv => ?event, ?twoReasons, fun c s => ?discards, fun c s t h => ?cleared⟩
  case event => rw [acceptCommand_of_isIllegal hw, acceptCommand_of_isIllegal hv]
  case twoReasons => exact (isIllegal_iff_rsv_or_op _).2 (by decide)
  case discards => rw [step_offer_reset, step_offer_reset]
  case cleared =>
    obtain rfl := next_state_unique h (step_offer_reset c s)
    exact applyReset_ill s

end Sys2Proof.Machine

namespace Sys2Proof.Machine

/-! SUPPORT. The step of a reset, and what the host reads after it (70_reset_and_hazards.md R102). -/

theorem applyReset_toEngine (s : State) : (applyReset s).toEngine = State.reset.toEngine := rfl

@[simp] theorem readResult_applyReset (s : State) : readResult (applyReset s) = 0xFFFF#16 := applyReset_result s

/-- Both flags are 0 after reset, and so is every other bit of `STATUS` (R17). -/
@[simp] theorem readStatus_applyReset (s : State) : readStatus (applyReset s) = 0x0000#16 := by
  rw [readStatus, applyReset_ill, applyReset_resValid]
  decide

theorem step_of_reset_input {s : State} {c : Option Word} {rest : List StepInput} (h : s.input = .reset c :: rest) :
    step s = .next (applyReset (s.withInput rest)) :=
  (step_of_input h).trans (applyInput_reset c _)

/-- Settles O24: the step is `applyReset`, whatever the state and the discarded word, and it fixes every element. -/
theorem resetWritesEveryElement : Obligations.ResetWritesEveryElement := by
  intro s c rest h
  refine ⟨applyReset (s.withInput rest), step_of_reset_input h, ?frame, ?elements⟩
  case frame => exact applyReset_input _
  case elements =>
    exact ⟨applyReset_acc _, applyReset_pend _, applyReset_pendValid _, applyReset_result _, applyReset_resValid _,
      applyReset_ill _, readStatus_applyReset _, readResult_applyReset _, applyReset_toEngine _⟩

end Sys2Proof.Machine

namespace Sys2Proof.Machine

/-! SUPPORT. The canonical encodings as values (30_encoding.md R37, R39, R41), and what the assembler makes of them
(R43, R44). -/

theorem cmd16_toNat (rsv : BitVec 6) (op : BitVec 2) (data : Byte) :
    (cmd16 rsv op data).toNat = rsv.toNat * 1024 + op.toNat * 256 + data.toNat := by
  have hop := op.isLt
  have hdata := data.isLt
  rw [cmd16, BitVec.toNat_append, BitVec.toNat_append, Nat.shiftLeft_eq, Nat.shiftLeft_eq,
    Nat.mul_comm (rsv.toNat), ← Nat.two_pow_add_eq_or_of_lt hop, Nat.mul_comm _ (2 ^ 8),
    ← Nat.two_pow_add_eq_or_of_lt hdata]
  omega

theorem encode_byte_toNat (d : Byte) : (encode (.byte d)).toNat = 256 + d.toNat := cmd16_toNat 0 0b01 d

theorem decode_cmd16_start (d : Byte) : decode (cmd16 0 0b00 d) = .command .start := by
  have hval : (cmd16 0 0b00 d).toNat = d.toNat := by simp [cmd16_toNat]
  rw [decode_eq_start_iff, hval]
  exact d.isLt

theorem decode_cmd16_finish (d : Byte) : decode (cmd16 0 0b10 d) = .command .finish := by
  have hd := d.isLt
  have hval : (cmd16 0 0b10 d).toNat = 512 + d.toNat := by simp [cmd16_toNat]
  rw [decode_eq_finish_iff, hval]
  omega

theorem dataField_encode_byte (d : Byte) : dataField (encode (.byte d)) = d := by
  have hd := d.isLt
  apply BitVec.eq_of_toNat_eq
  rw [dataField_toNat, encode_byte_toNat]
  omega

@[simp] theorem decode_encode (i : Instr) : decode (encode i) = .command i := by
  cases i with
  | start => exact decode_cmd16_start 0
  | byte d =>
    have hd := d.isLt
    rw [decode_eq_byte_iff, encode_byte_toNat]
    exact ⟨by omega, dataField_encode_byte d⟩
  | finish => exact decode_cmd16_finish 0

/-- Settles O3, one case per command: the encoding's value lies in the command's row, and `DATA` is the operand. -/
theorem decodeEncodeRoundTrip : Obligations.DecodeEncodeRoundTrip :=
  fun i _ => decode_encode i

theorem encode_start_of_decode {w : Word} (h : decode w = .command .start) : encode .start = w &&& 0xFF00#16 := by
  have hw := (decode_eq_start_iff w).1 h
  exact ((and_mask_eq_iff w (encode .start) rfl).2 ⟨Nat.zero_le _, hw⟩).symm

theorem encode_byte_of_decode {w : Word} {d : Byte} (h : decode w = .command (.byte d)) : encode (.byte d) = w := by
  obtain ⟨hw, rfl⟩ := (decode_eq_byte_iff w d).1 h
  apply BitVec.eq_of_toNat_eq
  rw [encode_byte_toNat, dataField_toNat]
  omega

theorem encode_finish_of_decode {w : Word} (h : decode w = .command .finish) : encode .finish = w &&& 0xFF00#16 := by
  have hw := (decode_eq_finish_iff w).1 h
  exact ((and_mask_eq_iff w (encode .finish) rfl).2 hw).symm

/-- Settles O4: within the row of `START` and of `FINISH` the mask leaves one value, and `BYTE` keeps its `DATA`. -/
theorem encodeDecodeIsCanonical : Obligations.EncodeDecodeIsCanonical := by
  intro w i h
  refine ⟨?start, ?byte, ?finish⟩
  case start =>
    rintro rfl
    exact encode_start_of_decode h
  case byte =>
    rintro d rfl
    exact encode_byte_of_decode h
  case finish =>
    rintro rfl
    exact encode_finish_of_decode h

/-- Settles O5: `DATA` does not move a word out of its row. -/
theorem startAndFinishIgnoreData : Obligations.StartAndFinishIgnoreData :=
  fun d s => ⟨acceptCommand_of_command (decode_cmd16_start d) s, acceptCommand_of_command (decode_cmd16_finish d) s⟩

/-- Settles O6 by evaluating the decoder on the seven words. -/
theorem workedEncodingsDecode : Obligations.WorkedEncodingsDecode := by
  unfold Obligations.WorkedEncodingsDecode
  decide

theorem isIllegal_of_decode_command {w : Word} {i : Instr} (h : decode w = .command i) : isIllegal w = false := by
  simp [isIllegal, h]

theorem byteInRange_iff (imm : Nat) : AsmLine.byteInRange imm = true ↔ imm < 256 := decide_eq_true_iff

theorem bytesActions_map_toNat (B : List Byte) :
    bytesActions (B.map BitVec.toNat) = (B.map fun b => encode (.byte b)).map .write := by
  simp [bytesActions, writeCommand, BitVec.ofNat_toNat]

theorem assemble_of_wellFormed {l : AsmLine} (h : l.wellFormed = true) : assemble l = some (expandLine l) :=
  if_pos h

theorem assemble_eq_none_iff (l : AsmLine) : assemble l = none ↔ l.wellFormed = false := by
  simp [assemble]

theorem assemble_byte (d : Byte) : assemble (.byte d.toNat) = some [.write (encode (.byte d))] := by
  have hd : (AsmLine.byte d.toNat).wellFormed = true := (byteInRange_iff _).2 d.isLt
  rw [assemble_of_wellFormed hd]
  exact congrArg some (bytesActions_map_toNat [d])

theorem assemble_cmd (w : Word) : assemble (.cmd w.toNat) = some [.write w] := by
  have hw : (AsmLine.cmd w.toNat).wellFormed = true := decide_eq_true_iff.2 w.isLt
  rw [assemble_of_wellFormed hw, expandLine, BitVec.ofNat_toNat, BitVec.setWidth_eq]

/-- Settles O7, one case per decoding of the word: the line assembles to the canonical encoding of the command, or to
the illegal word itself. -/
theorem assemblerUndoesDisassembler : Obligations.AssemblerUndoesDisassembler := by
  intro w
  cases hd : decode w with
  | illegal why =>
    refine ⟨w, ?_, hd, fun _ => rfl, by simp, by simp⟩
    rw [disassemble, hd]
    exact assemble_cmd w
  | command i =>
    refine ⟨encode i, ?_, decode_encode i, by simp [isIllegal_of_decode_command hd], ?_, ?_⟩
    · rw [disassemble, hd]
      cases i with
      | start => rfl
      | byte d => exact assemble_byte d
      | finish => rfl
    · rintro d ⟨⟩
      exact encode_byte_of_decode hd
    · rintro (⟨⟨⟩⟩ | ⟨⟨⟩⟩)
      · exact encode_start_of_decode hd
      · exact encode_finish_of_decode hd

theorem compute_wellFormed_iff (imms : List Nat) :
    (AsmLine.compute imms).wellFormed = true ↔ ∀ n ∈ imms, n < 256 := by
  simp [AsmLine.wellFormed, byteInRange_iff]

/-- Settles O8: the bytes of a buffer are in range and expand to their encodings; the range check is the only error. -/
theorem computeLineExpands : Obligations.ComputeLineExpands := by
  refine ⟨fun B => ?expansion, fun imms => ?error⟩
  case expansion =>
    have hrange : (AsmLine.compute (B.map BitVec.toNat)).wellFormed = true := by
      rw [compute_wellFormed_iff, List.forall_mem_map]
      exact fun b _ => b.isLt
    rw [assemble_of_wellFormed hrange, expandLine, bytesActions_map_toNat, computeWords]
    simp [writeCommand]
  case error =>
    rw [assemble_eq_none_iff, ← Bool.not_eq_true, compute_wellFormed_iff]
    push Not
    exact Iff.rfl

end Sys2Proof.Machine

namespace Sys2Proof.Machine

/-! SUPPORT. The fold in closed form: it keeps the residue modulo `0xFFFF` and is 0 only at 0
(40_checksum_function.md R55). -/

theorem foldPass_mod (x : Nat) : foldPass x % 0xFFFF = x % 0xFFFF := by
  rw [foldPass_eq]
  omega

theorem foldPass_pos {x : Nat} (h : 0 < x) : 0 < foldPass x := by
  rw [foldPass_eq]
  omega

@[simp] theorem fold_zero : fold 0 = 0 := rfl

/-- Each pass keeps the residue and a nonzero value nonzero, so the loop ends on the residue counted from 1. -/
theorem fold_of_pos {x : Nat} (h : 0 < x) : fold x = (x - 1) % 0xFFFF + 1 := by
  induction x using Nat.strong_induction_on with
  | _ x ih =>
    by_cases hbig : x > 0xFFFF
    · have hmod := foldPass_mod x
      have hpos := foldPass_pos h
      rw [← fold_foldPass, ih _ (foldPass_lt x hbig) hpos]
      omega
    · rw [fold_of_le (by omega)]
      omega

theorem fold_eq_zero_iff (x : Nat) : fold x = 0 ↔ x = 0 := by
  constructor
  · intro h
    by_contra hx
    rw [fold_of_pos (by omega)] at h
    omega
  · rintro rfl
    exact fold_zero

theorem fold_mod (x : Nat) : fold x % 0xFFFF = x % 0xFFFF := by
  rcases Nat.eq_zero_or_pos x with rfl | hx
  · rw [fold_zero]
  · rw [fold_of_pos hx]
    omega

/-- Two sums fold alike exactly when they have one residue and are zero together. -/
theorem fold_eq_fold_iff (x y : Nat) : fold x = fold y ↔ x % 0xFFFF = y % 0xFFFF ∧ (x = 0 ↔ y = 0) := by
  constructor
  · intro h
    rw [← fold_mod x, ← fold_mod y, ← fold_eq_zero_iff x, ← fold_eq_zero_iff y, h]
    exact ⟨rfl, Iff.rfl⟩
  · rintro ⟨hmod, hzero⟩
    rcases Nat.eq_zero_or_pos x with rfl | hx
    · rw [hzero.1 rfl]
    · have hy : 0 < y := by omega
      rw [fold_of_pos hx, fold_of_pos hy]
      omega

theorem fold_eq_allOnes_iff (x : Nat) : fold x = 0xFFFF ↔ x > 0 ∧ x % 0xFFFF = 0 := by
  rcases Nat.eq_zero_or_pos x with rfl | hx
  · simp
  · rw [fold_of_pos hx]
    omega

/-- Settles O45: the closed form of the fold, read through the value of `compute`. -/
theorem foldLoopClosedForm : Obligations.FoldLoopClosedForm := by
  refine ⟨fold_zero, fun x hx => fold_of_pos hx, fun B => ⟨fun hB => ?zero, fun hB => ?nonzero⟩⟩
  case zero =>
    rw [compute_eq, hB, fold_zero]
    rfl
  case nonzero => rw [compute_toNat, fold_of_pos (Nat.pos_of_ne_zero hB)]

/-- Settles O40: the two stages are the loop, so they have its closed form. -/
theorem foldUnitClosedForm : Obligations.FoldUnitClosedForm := by
  intro x
  have hzero (n : Nat) (y : BitVec n) : y = 0 ↔ y.toNat = 0 := by
    rw [← BitVec.toNat_inj]
    rfl
  have hpos (hx : x ≠ 0) : 0 < x.toNat := Nat.pos_of_ne_zero fun h => hx ((hzero _ x).2 h)
  refine ⟨?zero, fun hx => ?closed, fun hx hmod => ?multiple⟩
  case zero => rw [hzero, hzero, fold2_toNat_eq_fold, fold_eq_zero_iff]
  case closed => rw [fold2_toNat_eq_fold, fold_of_pos (hpos hx)]
  case multiple =>
    apply BitVec.eq_of_toNat_eq
    rw [fold2_toNat_eq_fold]
    exact (fold_eq_allOnes_iff _).2 ⟨hpos hx, hmod⟩

/-- Two passes are enough for a 32-bit value (R72). -/
theorem foldLoop_two_of_lt {x : Nat} (h : x < 2 ^ 32) : foldLoop 2 x = fold x := by
  by_cases hx : x > 0xFFFF
  · by_cases hy : foldPass x > 0xFFFF
    · have hfits : foldPass (foldPass x) ≤ 0xFFFF := by
        rw [foldPass_eq, foldPass_eq]
        omega
      rw [foldLoop, if_pos hx, foldLoop, if_pos hy, ← fold_foldPass x, ← fold_foldPass (foldPass x),
        fold_of_le hfits]
      rfl
    · rw [foldLoop, if_pos hx, foldLoop_small 1 _ (by omega), ← fold_foldPass x, fold_of_le (by omega)]
  · rw [foldLoop_small 2 x (by omega), fold_of_le (by omega)]

/-- Settles O39: stage 1 and stage 2 are the loop's passes; neither leaves its width. -/
theorem twoStageFoldEqualsTheLoop : Obligations.TwoStageFoldEqualsTheLoop := by
  refine ⟨by decide, ?_⟩
  rintro x y rfl
  have hx := x.isLt
  have hbound : (foldStage1 x).toNat ≤ 0x1FFFE := by
    rw [foldStage1_toNat]
    omega
  refine ⟨fold2_toNat_eq_fold x, foldLoop_two_of_lt hx, foldStage1_toNat x, hbound, by omega, ?_⟩
  exact foldStage2_toNat _ hbound

/-- Settles O41 by evaluating the fold unit and the loop on the ten inputs of the table. -/
theorem foldUnitCornerCases : Obligations.FoldUnitCornerCases := by
  unfold Obligations.FoldUnitCornerCases
  decide

/-! SUPPORT. The accumulator in closed form (41_ones_complement_adder.md R67 to R69). -/

/-- The exact sum of the words added. -/
def exactSum (ws : List Word) : Nat := (ws.map BitVec.toNat).sum

theorem exactSum_append (ws vs : List Word) : exactSum (ws ++ vs) = exactSum ws + exactSum vs := by
  simp [exactSum]

theorem exactSum_cons (w : Word) (ws : List Word) : exactSum (w :: ws) = w.toNat + exactSum ws := rfl

theorem exactSum_append_singleton (ws : List Word) (w : Word) : exactSum (ws ++ [w]) = exactSum ws + w.toNat :=
  exactSum_append ws [w]

theorem exactSum_perm {ws vs : List Word} (h : ws.Perm vs) : exactSum ws = exactSum vs :=
  (h.map BitVec.toNat).sum_eq

/-- End-around addition keeps the residue modulo `2 ^ 32 - 1` and never returns to 0. -/
theorem accSum_toNat (ws : List Word) :
    (accSum ws).toNat = if exactSum ws = 0 then 0 else (exactSum ws - 1) % (2 ^ 32 - 1) + 1 := by
  induction ws using List.reverseRecOn with
  | nil => rfl
  | append_singleton ws w ih =>
    have hw := w.isLt
    rw [accSum_append, add32_toNat, ih, exactSum_append_singleton]
    split <;> split <;> omega

theorem accSum_toNat_of_lt {ws : List Word} (h : exactSum ws < 2 ^ 32) : (accSum ws).toNat = exactSum ws := by
  rw [accSum_toNat]
  split <;> omega

theorem accSum_perm {ws vs : List Word} (h : ws.Perm vs) : accSum ws = accSum vs := by
  apply BitVec.eq_of_toNat_eq
  rw [accSum_toNat, accSum_toNat, exactSum_perm h]

theorem accSum_toNat_mod (ws : List Word) : (accSum ws).toNat % 0xFFFF = exactSum ws % 0xFFFF := by
  rw [accSum_toNat]
  split <;> omega

theorem accSum_toNat_eq_zero_iff (ws : List Word) : (accSum ws).toNat = 0 ↔ exactSum ws = 0 := by
  rw [accSum_toNat]
  split <;> omega

/-- The end-around carry is invisible after the fold: `0xFFFF` divides `2 ^ 32 - 1`. -/
theorem fold_accSum (ws : List Word) : fold (accSum ws).toNat = fold (exactSum ws) :=
  (fold_eq_fold_iff _ _).2 ⟨accSum_toNat_mod ws, accSum_toNat_eq_zero_iff ws⟩

/-- Settles O37: the closed form, and what it gives for the residue, for zero and for the fold. -/
theorem accumulatorClosedForm : Obligations.AccumulatorClosedForm := by
  rintro ws total htotal
  obtain rfl : total = exactSum ws := htotal
  have hzero : accSum ws = 0 ↔ exactSum ws = 0 := by
    rw [← accSum_toNat_eq_zero_iff, ← BitVec.toNat_inj]
    rfl
  refine ⟨hzero.2, fun hpos => ?_, accSum_toNat_mod ws, hzero, fold_accSum ws⟩
  rw [accSum_toNat, if_neg (by omega)]

/-- Settles O38: the exact sum of a permuted list is the same, and it fixes the accumulator. -/
theorem wordOrderDoesNotMatter : Obligations.WordOrderDoesNotMatter := by
  intro ws vs h
  rw [accSum_perm h]
  exact ⟨rfl, rfl⟩

theorem wordSum_eq (B : List Byte) : wordSum B = exactSum (fullWords B) + padValue B := rfl

/-- Every two bytes, and a trailing one, add at most `0xFFFF`. -/
theorem wordSum_le (B : List Byte) : wordSum B ≤ 0xFFFF * ((B.length + 1) / 2) := by
  induction B using fullWords.induct with
  | case1 => simp
  | case2 b =>
    have hb := b.isLt
    rw [wordSum_single, List.length_singleton]
    omega
  | case3 hi lo B ih =>
    have hhi := hi.isLt
    have hlo := lo.isLt
    rw [wordSum_pair, List.length_cons, List.length_cons]
    omega

/-- Settles O36: a sum below `2 ^ 32` is its own closed form, and 65537 words of at most `0xFFFF` stay below it. -/
theorem accumulatorIsExactBelow32Bits : Obligations.AccumulatorIsExactBelow32Bits := by
  refine ⟨fun ws hsum => ?words, fun B hlen => ?buffer⟩
  case words =>
    have hlt : exactSum ws < 2 ^ 32 := Nat.lt_of_le_of_lt hsum (by decide)
    refine ⟨accSum_toNat_of_lt hlt, ?_⟩
    rintro pre w post rfl
    rw [exactSum_append, exactSum_cons] at hlt
    rw [accSum_toNat_of_lt (by omega)]
    omega
  case buffer =>
    have hbound : wordSum B ≤ 2 ^ 32 - 1 := by
      have hle := wordSum_le B
      omega
    refine ⟨hbound, accSum_toNat_of_lt ?_⟩
    rw [wordSum_eq] at hbound
    omega

end Sys2Proof.Machine

namespace Sys2Proof.Machine

/-! SUPPORT. The current buffer of `HidesBuffer` through one step (10_state.md R15): what a further byte does to the
full words and to the trailing byte, by the parity of the buffer. -/

theorem trailingByte_isSome (B : List Byte) : (trailingByte B).isSome = decide (B.length % 2 = 1) := by
  induction B using trailingByte.induct with
  | case1 => rfl
  | case2 b => rfl
  | case3 hi lo B ih =>
    have hlen : (hi :: lo :: B).length = B.length + 2 := rfl
    rw [trailingByte_pair, ih, hlen, Nat.add_mod_right]

theorem fullWords_append_byte (B : List Byte) (d : Byte) :
    fullWords (B ++ [d]) = fullWords B ++ ((trailingByte B).map (pairWord · d)).toList := by
  induction B using fullWords.induct with
  | case1 => rfl
  | case2 b => rfl
  | case3 hi lo B ih => simp [ih]

theorem trailingByte_append_byte (B : List Byte) (d : Byte) :
    trailingByte (B ++ [d]) = if (trailingByte B).isSome then none else some d := by
  induction B using trailingByte.induct with
  | case1 => rfl
  | case2 b => rfl
  | case3 hi lo B ih => exact ih

theorem hidesBuffer_nil_iff (s : State) : HidesBuffer [] s ↔ HiddenIsReset s :=
  ⟨fun h => ⟨h.acc, h.pend, h.pendValid⟩, fun ⟨hacc, hpend, hvalid⟩ => ⟨hacc, hpend, hvalid⟩⟩

/-- Only the hidden elements count. -/
theorem HidesBuffer.congr {B : List Byte} {s t : State} (h : HidesBuffer B s) (hacc : t.acc = s.acc)
    (hpend : t.pend = s.pend) (hvalid : t.pendValid = s.pendValid) : HidesBuffer B t :=
  ⟨hacc.trans h.acc, hpend.trans h.pend, hvalid.trans h.pendValid⟩

/-- `PEND_VALID` says whether there is a trailing byte. -/
theorem HidesBuffer.pendValid_eq {B : List Byte} {s : State} (h : HidesBuffer B s) :
    s.pendValid = (trailingByte B).isSome :=
  h.pendValid.trans (trailingByte_isSome B).symm

theorem HidesBuffer.of_appendByte {B : List Byte} {s : State} (h : HidesBuffer B s) (d : Byte) :
    HidesBuffer (B ++ [d]) (appendByte d s) := by
  have hv := h.pendValid_eq
  have hpend := h.pend
  constructor
  case acc =>
    rw [appendByte_acc, hv, h.acc, hpend, fullWords_append_byte]
    cases trailingByte B with
    | none => simp
    | some b => simp [accSum_append]
  case pend =>
    rw [appendByte_pend, hv, trailingByte_append_byte]
    cases (trailingByte B).isSome <;> rfl
  case pendValid =>
    rw [appendByte_pendValid, hv, ← trailingByte_isSome, trailingByte_append_byte]
    cases (trailingByte B).isSome <;> rfl

@[simp] theorem bufferAfter_reset (B : List Byte) (c : Option Word) : bufferAfter B (.reset c) = [] := rfl

theorem bufferAfter_of_start {w : Word} (h : decode w = .command .start) (B : List Byte) :
    bufferAfter B (.command w) = [] := by simp [bufferAfter, h]

theorem bufferAfter_of_byte {w : Word} {d : Byte} (h : decode w = .command (.byte d)) (B : List Byte) :
    bufferAfter B (.command w) = B ++ [d] := by simp [bufferAfter, h]

theorem bufferAfter_of_finish {w : Word} (h : decode w = .command .finish) (B : List Byte) :
    bufferAfter B (.command w) = [] := by simp [bufferAfter, h]

theorem bufferAfter_of_illegal {w : Word} {why : IllegalReason} (h : decode w = .illegal why) (B : List Byte) :
    bufferAfter B (.command w) = B := by simp [bufferAfter, h]

/-- Every outcome of a word or of reset keeps the hidden state at the function of the buffer. -/
theorem HidesBuffer.of_applyInput {B : List Byte} {s t : State} {e : StepInput} (h : HidesBuffer B s)
    (ht : applyInput e s = .next t) : HidesBuffer (bufferAfter B e) t := by
  cases e with
  | reset c =>
    obtain rfl := next_state_unique ht (applyInput_reset c s)
    rw [bufferAfter_reset]
    exact (hidesBuffer_nil_iff _).2 ⟨rfl, rfl, rfl⟩
  | command w =>
    obtain ⟨hd, rfl⟩ | ⟨d, hd, rfl⟩ | ⟨hd, rfl⟩ | ⟨why, hd, rfl⟩ := acceptCommand_cases ht
    · rw [bufferAfter_of_start hd]
      exact (hidesBuffer_nil_iff _).2 ⟨rfl, rfl, rfl⟩
    · rw [bufferAfter_of_byte hd]
      exact (h.of_appendByte d).congr rfl rfl rfl
    · rw [bufferAfter_of_finish hd]
      exact (hidesBuffer_nil_iff _).2 ⟨rfl, rfl, rfl⟩
    · rw [bufferAfter_of_illegal hd]
      exact h.congr rfl rfl rfl

theorem applyInput_total (e : StepInput) (s : State) : ∃ t, applyInput e s = .next t := by
  cases e with
  | reset c => exact ⟨_, applyInput_reset c s⟩
  | command w => exact acceptCommand_total w s

theorem applyInput_input {e : StepInput} {s t : State} (h : applyInput e s = .next t) : t.input = s.input := by
  cases e with
  | reset c =>
    obtain rfl := next_state_unique h (applyInput_reset c s)
    exact applyReset_input s
  | command w => exact acceptCommand_input h

/-- Settles O28: one step applies one input, and each input keeps the hidden state at the buffer it leaves. -/
theorem hiddenStateIsAFunctionOfTheBuffer : Obligations.HiddenStateIsAFunctionOfTheBuffer := by
  refine ⟨(hidesBuffer_nil_iff _).2 ⟨rfl, rfl, rfl⟩, fun B s e rest hB hin => ?_⟩
  obtain ⟨t, ht⟩ := applyInput_total e (s.withInput rest)
  have hB' : HidesBuffer B (s.withInput rest) := hB.congr rfl rfl rfl
  exact ⟨t, (step_of_input hin).trans ht, applyInput_input ht, hB'.of_applyInput ht⟩

/-! SUPPORT. `FINISH` on a represented buffer gives the source's function (43_engine_commands.md R80, R85). -/

/-- The words `FINISH` folds: the full words, then the pad word of a trailing byte (R48, R80). -/
def paddedWords (B : List Byte) : List Word := fullWords B ++ ((trailingByte B).map padWord).toList

theorem exactSum_paddedWords (B : List Byte) : exactSum (paddedWords B) = wordSum B := by
  have hpad : exactSum ((trailingByte B).map padWord).toList = padValue B := by
    rw [padValue]
    cases trailingByte B with
    | none => rfl
    | some b => exact padWord_toNat b
  rw [paddedWords, exactSum_append, hpad, wordSum_eq]

theorem HidesBuffer.foldInput_eq {B : List Byte} {s : State} (h : HidesBuffer B s) :
    foldInput s = accSum (paddedWords B) := by
  rw [foldInput, h.pendValid_eq, h.acc, h.pend, paddedWords]
  cases trailingByte B with
  | none => simp
  | some b => simp [accSum_append]

theorem HidesBuffer.resOut_foldInput_eq {B : List Byte} {s : State} (h : HidesBuffer B s) :
    resOut (foldInput s) = compute B := by
  rw [h.foldInput_eq, resOut_eq_ofNat_fold, fold_accSum, exactSum_paddedWords, compute_eq]

/-! SUPPORT. The abstract machine that keeps the bytes, one equation per kind of step. -/

@[simp] theorem Abstract.apply_reset (a : Abstract) (c : Option Word) : a.apply (.reset c) = Abstract.reset := rfl

theorem Abstract.apply_of_start {w : Word} (h : decode w = .command .start) (a : Abstract) :
    a.apply (.command w) = { a with buffer := [], resValid := false, ill := false } := by simp [Abstract.apply, h]

theorem Abstract.apply_of_byte {w : Word} {d : Byte} (h : decode w = .command (.byte d)) (a : Abstract) :
    a.apply (.command w) = { a with buffer := a.buffer ++ [d], resValid := false } := by simp [Abstract.apply, h]

theorem Abstract.apply_of_finish {w : Word} (h : decode w = .command .finish) (a : Abstract) :
    a.apply (.command w) = { a with buffer := [], result := compute a.buffer, resValid := true } := by
  simp [Abstract.apply, h]

theorem Abstract.apply_of_illegal {w : Word} {why : IllegalReason} (h : decode w = .illegal why) (a : Abstract) :
    a.apply (.command w) = { a with ill := true } := by simp [Abstract.apply, h]

/-- The abstract machine's buffer is the current buffer of R15. -/
theorem Abstract.apply_buffer (a : Abstract) (e : StepInput) : (a.apply e).buffer = bufferAfter a.buffer e := by
  cases e with
  | reset c => rfl
  | command w =>
    cases hd : decode w with
    | illegal why => rw [Abstract.apply_of_illegal hd, bufferAfter_of_illegal hd]
    | command i =>
      cases i with
      | start => rw [Abstract.apply_of_start hd, bufferAfter_of_start hd]
      | byte d => rw [Abstract.apply_of_byte hd, bufferAfter_of_byte hd]
      | finish => rw [Abstract.apply_of_finish hd, bufferAfter_of_finish hd]

/-- The hidden state follows the buffer; the visible elements are written alike on both sides. -/
theorem Represents.of_applyInput {a : Abstract} {s t : State} {e : StepInput} (h : Represents a s)
    (ht : applyInput e s = .next t) : Represents (a.apply e) t := by
  obtain ⟨hB, hresult, hvalid, hill⟩ := h
  refine ⟨?hidden, ?visible⟩
  case hidden =>
    rw [Abstract.apply_buffer]
    exact hB.of_applyInput ht
  case visible =>
    cases e with
    | reset c =>
      obtain rfl := next_state_unique ht (applyInput_reset c s)
      rw [Abstract.apply_reset]
      exact ⟨rfl, rfl, rfl⟩
    | command w =>
      obtain ⟨hd, rfl⟩ | ⟨d, hd, rfl⟩ | ⟨hd, rfl⟩ | ⟨why, hd, rfl⟩ := acceptCommand_cases ht
      · rw [Abstract.apply_of_start hd]
        exact ⟨hresult, rfl, rfl⟩
      · rw [Abstract.apply_of_byte hd]
        exact ⟨(appendByte_result d s).trans hresult, rfl, (appendByte_ill d s).trans hill⟩
      · rw [Abstract.apply_of_finish hd]
        exact ⟨hB.resOut_foldInput_eq, rfl, hill⟩
      · rw [Abstract.apply_of_illegal hd]
        exact ⟨hresult, hvalid, rfl⟩

theorem Represents.of_withInput {a : Abstract} {s : State} (h : Represents a s) (rest : List StepInput) :
    Represents a (s.withInput rest) := by
  obtain ⟨hB, hvisible⟩ := h
  exact ⟨hB.congr rfl rfl rfl, hvisible⟩

theorem Represents.exists_step {a : Abstract} {s : State} {e : StepInput} {rest : List StepInput} (h : Represents a s)
    (hin : s.input = e :: rest) :
    ∃ t : State, step s = .next t ∧ t.input = rest ∧ Represents (a.apply e) t := by
  obtain ⟨t, ht⟩ := applyInput_total e (s.withInput rest)
  exact ⟨t, (step_of_input hin).trans ht, applyInput_input ht, (h.of_withInput rest).of_applyInput ht⟩

/-- Settles O29: the representation relation is a simulation, with one commuting case per kind of step. -/
theorem engineRefinesTheChecksumFunction : Obligations.EngineRefinesTheChecksumFunction :=
  fun _ _ _ _ h hin => h.exists_step hin

/-! SUPPORT. Whole calls, run on the abstract machine (43_engine_commands.md R84, R85). -/

/-- The simulation along any number of steps. -/
theorem Represents.exists_runSteps {a : Abstract} {s : State} (es : List StepInput) {rest : List StepInput}
    (h : Represents a s) (hin : s.input = es ++ rest) :
    ∃ t : State, runSteps es.length s = .next t ∧ t.input = rest ∧ Represents (es.foldl Abstract.apply a) t := by
  induction es generalizing a s with
  | nil => exact ⟨s, runSteps_zero s, hin, h⟩
  | cons e es ih =>
    obtain ⟨u, hu, huin, hrep⟩ := h.exists_step hin
    obtain ⟨t, ht, htin, hrep'⟩ := ih hrep huin
    exact ⟨t, (runSteps_succ hu es.length).trans ht, htin, hrep'⟩

/-- The abstract state an engine with nothing hidden represents. -/
def emptyCall (s : State) : Abstract where
  buffer := []
  result := s.result
  resValid := s.resValid
  ill := s.ill

theorem represents_emptyCall {s : State} (h : HiddenIsReset s) : Represents (emptyCall s) s :=
  ⟨(hidesBuffer_nil_iff s).2 h, rfl, rfl, rfl⟩

theorem not_insideCall_of_start {w : Word} (h : decode w = .command .start) : insideCall w = false := by
  simp [insideCall, h]

theorem not_insideCall_of_finish {w : Word} (h : decode w = .command .finish) : insideCall w = false := by
  simp [insideCall, h]

theorem deliveredBytes_cons_of_byte {w : Word} {d : Byte} (h : decode w = .command (.byte d)) (ws : List Word) :
    deliveredBytes (w :: ws) = d :: deliveredBytes ws := by simp [deliveredBytes, h]

theorem deliveredBytes_cons_of_illegal {w : Word} {why : IllegalReason} (h : decode w = .illegal why)
    (ws : List Word) : deliveredBytes (w :: ws) = deliveredBytes ws := by simp [deliveredBytes, h]

/-- A word inside a call is a `BYTE` or illegal (R84). -/
theorem insideCall_cases {w : Word} (h : insideCall w = true) :
    (∃ d, decode w = .command (.byte d)) ∨ ∃ why, decode w = .illegal why := by
  cases hd : decode w with
  | illegal why => exact .inr ⟨why, rfl⟩
  | command i =>
    cases i with
    | start => simp [not_insideCall_of_start hd] at h
    | byte d => exact .inl ⟨d, rfl⟩
    | finish => simp [not_insideCall_of_finish hd] at h

/-- Inside a call the abstract buffer collects the bytes delivered, and `ILL` whether a word was illegal. -/
theorem foldl_apply_insideCall (ws : List Word) (a : Abstract) (h : ∀ w ∈ ws, insideCall w = true) :
    ((ws.map StepInput.command).foldl Abstract.apply a).buffer = a.buffer ++ deliveredBytes ws ∧
    ((ws.map StepInput.command).foldl Abstract.apply a).ill = (a.ill || ws.any isIllegal) := by
  induction ws generalizing a with
  | nil => simp [deliveredBytes]
  | cons w ws ih =>
    obtain ⟨hw, hws⟩ := List.forall_mem_cons.1 h
    obtain ⟨hbuffer, hill⟩ := ih (a.apply (.command w)) hws
    rw [List.map_cons, List.foldl_cons, List.any_cons, hbuffer, hill]
    obtain ⟨d, hd⟩ | ⟨why, hd⟩ := insideCall_cases hw
    · rw [Abstract.apply_of_byte hd, deliveredBytes_cons_of_byte hd, isIllegal_of_decode_command hd]
      simp
    · have hw' : isIllegal w = true := (isIllegal_iff w).2 ⟨why, hd⟩
      rw [Abstract.apply_of_illegal hd, deliveredBytes_cons_of_illegal hd, hw']
      simp

/-- Settles O31: the call is run on the abstract machine, whose `FINISH` writes `compute` of what was delivered. -/
theorem finishGivesTheDeliveredBytes : Obligations.FinishGivesTheDeliveredBytes := by
  intro ws f s rest hs hws hf hin
  have hin' : s.input = (ws.map StepInput.command ++ [.command f]) ++ rest := by simpa using hin
  obtain ⟨t, hrun, htin, hrep⟩ := (represents_emptyCall hs).exists_runSteps _ hin'
  obtain ⟨hbuffer, hill⟩ := foldl_apply_insideCall ws (emptyCall s) hws
  rw [List.foldl_append, List.foldl_cons, List.foldl_nil, Abstract.apply_of_finish hf] at hrep
  obtain ⟨hB, hresult, hvalid, hillt⟩ := hrep
  refine ⟨t, by simpa using hrun, htin, hresult.trans ?_, hvalid, hillt.trans hill, (hidesBuffer_nil_iff t).1 hB⟩
  rw [hbuffer]
  rfl

theorem deliveredBytes_of_no_illegal (ws : List Word) (h : ∀ w ∈ ws, insideCall w = true)
    (hlegal : ∀ w ∈ ws, isIllegal w = false) : deliveredBytes ws = ws.map dataField := by
  induction ws with
  | nil => rfl
  | cons w ws ih =>
    obtain ⟨hw, hws⟩ := List.forall_mem_cons.1 h
    obtain ⟨hl, hls⟩ := List.forall_mem_cons.1 hlegal
    obtain ⟨d, hd⟩ | ⟨why, hd⟩ := insideCall_cases hw
    · obtain ⟨-, rfl⟩ := (decode_eq_byte_iff w d).1 hd
      rw [deliveredBytes_cons_of_byte hd, ih hws hls, List.map_cons]
    · exact absurd ((isIllegal_iff w).2 ⟨why, hd⟩) (by simp [hl])

theorem usableResult_eq_some_iff (s : State) (r : Word) :
    usableResult s = some r ↔ s.resValid = true ∧ s.ill = false ∧ s.result = r := by
  simp [usableResult, and_assoc]

/-- Settles O32: `ILL` clear at the end of the call says that no word of it was illegal, so every word was a byte. -/
theorem usableResultIsTheChecksum : Obligations.UsableResultIsTheChecksum := by
  intro ws f s t rest r hs hill hws hf hin hrun husable
  obtain ⟨u, hu, -, hresult, -, hillu, -⟩ := finishGivesTheDeliveredBytes ws f s rest hs hws hf hin
  obtain rfl := next_state_unique hrun hu
  obtain ⟨-, hillt, rfl⟩ := (usableResult_eq_some_iff t r).1 husable
  have hlegal : ∀ w ∈ ws, isIllegal w = false := by simpa [hill, hillt] using hillu.symm
  exact ⟨hlegal, by rw [hresult, deliveredBytes_of_no_illegal ws hws hlegal]⟩

/-- The words of the bytes of a buffer, as `COMPUTE` writes them. -/
def byteWords (B : List Byte) : List Word := B.map fun b => encode (.byte b)

theorem computeWords_eq (B : List Byte) : computeWords B = encode .start :: (byteWords B ++ [encode .finish]) := rfl

theorem isIllegal_encode (i : Instr) : isIllegal (encode i) = false := isIllegal_of_decode_command (decode_encode i)

theorem insideCall_encode_byte (b : Byte) : insideCall (encode (.byte b)) = true := by simp [insideCall]

theorem insideCall_of_mem_byteWords {B : List Byte} : ∀ w ∈ byteWords B, insideCall w = true :=
  List.forall_mem_map.2 fun b _ => insideCall_encode_byte b

theorem isIllegal_of_mem_byteWords {B : List Byte} : ∀ w ∈ byteWords B, isIllegal w = false :=
  List.forall_mem_map.2 fun _ _ => isIllegal_encode _

theorem deliveredBytes_byteWords (B : List Byte) : deliveredBytes (byteWords B) = B := by
  rw [deliveredBytes_of_no_illegal _ insideCall_of_mem_byteWords isIllegal_of_mem_byteWords, byteWords, List.map_map]
  simp [Function.comp_def, dataField_encode_byte]

/-- The call without its `START`: a call of bytes alone, from an empty hidden state. -/
theorem runSteps_byteWords {B : List Byte} {s : State} {rest : List StepInput} (hs : HiddenIsReset s)
    (hin : s.input = (byteWords B ++ [encode .finish]).map .command ++ rest) :
    ∃ t : State, runSteps (B.length + 1) s = .next t ∧ t.input = rest ∧
      t.result = compute B ∧ t.resValid = true ∧ t.ill = s.ill ∧ HiddenIsReset t := by
  have hin' : s.input = (byteWords B).map .command ++ .command (encode .finish) :: rest := by simpa using hin
  have hlen : (byteWords B).length = B.length := List.length_map _
  have hnone : (byteWords B).any isIllegal = false :=
    List.any_eq_false.2 fun w hw => by simp [isIllegal_of_mem_byteWords w hw]
  obtain ⟨t, hrun, htin, hresult, hvalid, hill, ht⟩ :=
    finishGivesTheDeliveredBytes (byteWords B) _ s rest hs insideCall_of_mem_byteWords (decode_encode .finish) hin'
  rw [hlen] at hrun
  rw [deliveredBytes_byteWords] at hresult
  rw [hnone, Bool.or_false] at hill
  exact ⟨t, hrun, htin, hresult, hvalid, hill, ht⟩

/-- Settles O30: `START` empties the hidden state whatever it was, and from there the call is one of bytes alone. -/
theorem computeSequenceGivesTheChecksum : Obligations.ComputeSequenceGivesTheChecksum := by
  refine ⟨fun B s rest hin => ?withStart, fun B s rest hs hin => runSteps_byteWords hs hin, ⟨rfl, rfl, rfl⟩,
    fun _ _ h => hiddenIsReset_of_exec_finish h⟩
  case withStart =>
    rw [computeWords_eq, List.map_cons, List.cons_append] at hin
    have hstep := (step_of_input hin).trans (acceptCommand_of_command (decode_encode .start) _)
    rw [runSteps_succ (hstep.trans (exec_start _))]
    exact runSteps_byteWords ⟨rfl, rfl, rfl⟩ rfl

/-! SUPPORT. Two runs that agree in the hidden state and in the input (10_state.md R22). -/

/-- The elements the arithmetic reads, and what the host will do. -/
structure AgreeHidden (s s' : State) : Prop where
  acc : s.acc = s'.acc
  pend : s.pend = s'.pend
  pendValid : s.pendValid = s'.pendValid
  input : s.input = s'.input

/-- Both states before kept their `RESULT`, or both states after hold the same one. -/
def SameWrite (s s' t t' : State) : Prop := t.result = t'.result ∨ (t.result = s.result ∧ t'.result = s'.result)

theorem AgreeHidden.foldInput_eq {s s' : State} (h : AgreeHidden s s') :
    foldInput s = foldInput s' := by
  rw [foldInput, foldInput, h.acc, h.pend, h.pendValid]

theorem AgreeHidden.of_appendByte {s s' : State} (h : AgreeHidden s s') (d : Byte) :
    AgreeHidden (appendByte d s) (appendByte d s') := by
  constructor
  case acc => rw [appendByte_acc, appendByte_acc, h.acc, h.pend, h.pendValid]
  case pend => rw [appendByte_pend, appendByte_pend, h.pendValid]
  case pendValid => rw [appendByte_pendValid, appendByte_pendValid, h.pendValid]
  case input => rw [appendByte_input, appendByte_input, h.input]

theorem AgreeHidden.of_withInput {s s' : State} (h : AgreeHidden s s') (rest : List StepInput) :
    AgreeHidden (s.withInput rest) (s'.withInput rest) :=
  ⟨h.acc, h.pend, h.pendValid, rfl⟩

theorem AgreeHidden.of_acceptCommand {s s' t t' : State} {w : Word} (h : AgreeHidden s s')
    (ht : acceptCommand w s = .next t) (ht' : acceptCommand w s' = .next t') :
    AgreeHidden t t' ∧ SameWrite s s' t t' := by
  obtain ⟨hd, rfl⟩ | ⟨d, hd, rfl⟩ | ⟨hd, rfl⟩ | ⟨why, hd, rfl⟩ := acceptCommand_cases ht
  · obtain rfl := next_state_unique ht' (acceptCommand_of_command hd s')
    exact ⟨⟨rfl, rfl, rfl, h.input⟩, .inr ⟨rfl, rfl⟩⟩
  · obtain rfl := next_state_unique ht' (acceptCommand_of_command hd s')
    obtain ⟨hacc, hpend, hvalid, hin⟩ := h.of_appendByte d
    exact ⟨⟨hacc, hpend, hvalid, hin⟩, .inr ⟨appendByte_result d s, appendByte_result d s'⟩⟩
  · obtain rfl := next_state_unique ht' (acceptCommand_of_command hd s')
    exact ⟨⟨rfl, rfl, rfl, h.input⟩, .inl (congrArg resOut h.foldInput_eq)⟩
  · obtain rfl := next_state_unique ht' (acceptCommand_of_illegal hd s')
    exact ⟨⟨h.acc, h.pend, h.pendValid, h.input⟩, .inr ⟨rfl, rfl⟩⟩

theorem AgreeHidden.of_step {s s' t t' : State} (h : AgreeHidden s s') (ht : step s = .next t)
    (ht' : step s' = .next t') : AgreeHidden t t' ∧ SameWrite s s' t t' := by
  obtain ⟨hin, rfl⟩ | ⟨c, rest, hin, rfl⟩ | ⟨w, rest, hin, hw⟩ := step_cases ht
  · obtain rfl := next_state_unique ht' (step_idle (h.input.symm.trans hin))
    exact ⟨h, .inr ⟨rfl, rfl⟩⟩
  · obtain rfl := next_state_unique ht' (step_of_reset_input (h.input.symm.trans hin))
    exact ⟨⟨rfl, rfl, rfl, rfl⟩, .inl rfl⟩
  · rw [step_of_input (h.input.symm.trans hin), applyInput_command] at ht'
    exact (h.of_withInput rest).of_acceptCommand hw ht'

/-- A later write that agrees hides an earlier one; where neither run writes later, the earlier ones decide. -/
theorem SameWrite.trans {s s' u u' t t' : State} (h : SameWrite s s' u u') (h' : SameWrite u u' t t') :
    SameWrite s s' t t' := by
  obtain ht | ⟨ht, ht'⟩ := h'
  · exact .inl ht
  · rw [SameWrite, ht, ht']
    exact h

theorem AgreeHidden.of_runSteps {s s' t t' : State} (h : AgreeHidden s s') (k : Nat) (ht : runSteps k s = .next t)
    (ht' : runSteps k s' = .next t') : AgreeHidden t t' ∧ SameWrite s s' t t' := by
  induction k generalizing s s' with
  | zero =>
    obtain rfl := next_state_unique ht (runSteps_zero s)
    obtain rfl := next_state_unique ht' (runSteps_zero s')
    exact ⟨h, .inr ⟨rfl, rfl⟩⟩
  | succ k ih =>
    obtain ⟨u, hu⟩ := step_total s
    obtain ⟨u', hu'⟩ := step_total s'
    rw [runSteps_succ hu] at ht
    rw [runSteps_succ hu'] at ht'
    obtain ⟨hagree, hwrite⟩ := h.of_step hu hu'
    obtain ⟨hagree', hwrite'⟩ := ih hagree ht ht'
    exact ⟨hagree', hwrite.trans hwrite'⟩

theorem hiddenIsReset_of_exec_start {s t : State} (h : exec .start s = .next t) : HiddenIsReset t := by
  obtain rfl := next_state_unique h (exec_start_eq s)
  exact ⟨rfl, rfl, rfl⟩

/-- Settles O33: agreement in the hidden state and the input is kept by every step, and so by every run. -/
theorem nothingCrossesComputations : Obligations.NothingCrossesComputations := by
  refine ⟨fun s t h => h.elim hiddenIsReset_of_exec_start hiddenIsReset_of_exec_finish, ?twoRuns⟩
  case twoRuns =>
    intro k s s' t t' hacc hpend hvalid hin ht ht'
    have hagree : AgreeHidden s s' := ⟨hacc, hpend, hvalid, hin⟩
    obtain ⟨⟨hacc', hpend', hvalid', hin'⟩, hwrite⟩ := hagree.of_runSteps k ht ht'
    exact ⟨hacc', hpend', hvalid', hin', hwrite⟩

/-- Settles O34, by induction on the number of steps. -/
theorem noInputStopsTheEngine : Obligations.NoInputStopsTheEngine := by
  intro k
  induction k with
  | zero => exact fun s => ⟨s, runSteps_zero s⟩
  | succ k ih =>
    intro s
    obtain ⟨u, hu⟩ := step_total s
    obtain ⟨t, ht⟩ := ih u
    exact ⟨t, (runSteps_succ hu k).trans ht⟩

/-- Settles O22: of the steps, only reset and `FINISH` do not keep `RESULT`. -/
theorem onlyFinishAndResetWriteResult : Obligations.OnlyFinishAndResetWriteResult := by
  intro s t h hne
  obtain ⟨-, rfl⟩ | ⟨c, rest, hin, -⟩ | ⟨w, rest, hin, hw⟩ := step_cases h
  · exact absurd rfl hne
  · exact ⟨rest, .inl ⟨c, hin⟩⟩
  · obtain ⟨-, rfl⟩ | ⟨d, -, rfl⟩ | ⟨hd, -⟩ | ⟨why, -, rfl⟩ := acceptCommand_cases hw
    · exact absurd rfl hne
    · exact absurd (appendByte_result d _) hne
    · exact ⟨rest, .inr ⟨w, hin, hd⟩⟩
    · exact absurd rfl hne

end Sys2Proof.Machine

namespace Sys2Proof.Machine

/-! SUPPORT. The word sum of a buffer that is put together or changed at one place (40_checksum_function.md R47 to
R49, R62). -/

theorem wordSum_append_of_even (A B : List Byte) (h : A.length % 2 = 0) :
    wordSum (A ++ B) = wordSum A + wordSum B := by
  induction A using fullWords.induct with
  | case1 => simp
  | case2 b => simp at h
  | case3 hi lo A ih =>
    have hA : A.length % 2 = 0 := by
      rw [List.length_cons, List.length_cons] at h
      omega
    rw [List.cons_append, List.cons_append, wordSum_pair, wordSum_pair, ih hA]
    omega

/-- A byte after an odd-length piece takes the low half of the pad word, which the zero byte held. -/
theorem wordSum_append_byte_of_odd (A : List Byte) (b : Byte) (h : A.length % 2 = 1) :
    wordSum (A ++ [b]) = wordSum A + b.toNat := by
  induction A using fullWords.induct with
  | case1 => simp at h
  | case2 a => rw [List.singleton_append, wordSum_pair, wordSum_single, wordSum_nil, Nat.add_zero]
  | case3 hi lo A ih =>
    have hA : A.length % 2 = 1 := by
      rw [List.length_cons, List.length_cons] at h
      omega
    rw [List.cons_append, List.cons_append, wordSum_pair, wordSum_pair, ih hA]
    omega

theorem wordSum_append_cons_of_odd (A B : List Byte) (b : Byte) (h : A.length % 2 = 1) :
    wordSum (A ++ b :: B) = wordSum A + b.toNat + wordSum B := by
  have hodd : (A ++ [b]).length % 2 = 0 := by
    rw [List.length_append, List.length_singleton]
    omega
  rw [List.append_cons, wordSum_append_of_even _ _ hodd, wordSum_append_byte_of_odd A b h]

theorem wordSum_two (hi lo : Byte) : wordSum [hi, lo] = hi.toNat * 256 + lo.toNat := by
  rw [wordSum_pair, wordSum_nil, Nat.add_zero]

theorem byte_zero_toNat : (0x00 : Byte).toNat = 0 := rfl

theorem byte_eq_zero_iff (b : Byte) : b = 0x00 ↔ b.toNat = 0 := BitVec.toNat_inj.symm

theorem wordSum_append_zero (B : List Byte) : wordSum (B ++ [0x00]) = wordSum B := by
  rcases Nat.mod_two_eq_zero_or_one B.length with h | h
  · rw [wordSum_append_of_even B _ h, wordSum_single]
    rfl
  · rw [wordSum_append_byte_of_odd B _ h]
    rfl

/-- Two zero bytes move everything after them by a whole word. -/
theorem wordSum_insert_zeros (before after : List Byte) :
    wordSum (before ++ [0x00, 0x00] ++ after) = wordSum (before ++ after) := by
  induction before using fullWords.induct with
  | case1 => exact (wordSum_pair 0 0 after).trans (Nat.zero_add _)
  | case2 b =>
    cases after with
    | nil => exact (wordSum_append_zero [b, 0]).trans (wordSum_append_zero [b])
    | cons c after =>
      have hpairs : wordSum (b :: 0 :: 0 :: c :: after) = wordSum (b :: c :: after) := by
        rw [wordSum_pair, wordSum_pair, wordSum_pair, byte_zero_toNat]
        omega
      exact hpairs
  | case3 hi lo before ih =>
    simp only [List.cons_append, wordSum_pair] at ih ⊢
    rw [ih]

theorem wordSum_eq_zero_iff (B : List Byte) : wordSum B = 0 ↔ ∀ b ∈ B, b = 0x00 := by
  induction B using fullWords.induct with
  | case1 => simp
  | case2 b =>
    rw [wordSum_single, List.forall_mem_singleton, byte_eq_zero_iff]
    omega
  | case3 hi lo B ih =>
    rw [wordSum_pair, List.forall_mem_cons, List.forall_mem_cons, ← ih, byte_eq_zero_iff,
      byte_eq_zero_iff]
    omega

/-! SUPPORT. `compute` as the complement of the folded sum (R52), and when it takes a given value. -/

theorem compute_eq_compute_iff (B C : List Byte) : compute B = compute C ↔ fold (wordSum B) = fold (wordSum C) := by
  have hB := fold_le (wordSum B)
  have hC := fold_le (wordSum C)
  rw [← BitVec.toNat_inj, compute_toNat, compute_toNat]
  omega

theorem compute_congr {B C : List Byte} (h : wordSum B = wordSum C) : compute B = compute C :=
  (compute_eq_compute_iff B C).2 (congrArg fold h)

theorem compute_eq_allOnes_iff (B : List Byte) : compute B = 0xFFFF ↔ wordSum B = 0 := by
  have hB := fold_le (wordSum B)
  have hones : (0xFFFF : Word).toNat = 0xFFFF := rfl
  rw [← fold_eq_zero_iff, ← BitVec.toNat_inj, compute_toNat, hones]
  omega

theorem compute_eq_zero_iff (B : List Byte) : compute B = 0x0000 ↔ fold (wordSum B) = 0xFFFF := by
  have hB := fold_le (wordSum B)
  have hzero : (0x0000 : Word).toNat = 0 := rfl
  rw [← BitVec.toNat_inj, compute_toNat, hzero]
  omega

theorem compute_eq_zero_iff_mod (B : List Byte) : compute B = 0x0000 ↔ wordSum B > 0 ∧ wordSum B % 0xFFFF = 0 :=
  (compute_eq_zero_iff B).trans (fold_eq_allOnes_iff _)

/-- The two bytes of a checksum and the folded sum add up to `0xFFFF`. -/
theorem checksum_bytes_add_fold {B : List Byte} {hi lo : Byte} (h : compute B = hi ++ lo) :
    hi.toNat * 256 + lo.toNat + fold (wordSum B) = 0xFFFF := by
  have hle := fold_le (wordSum B)
  have hval : (compute B).toNat = hi.toNat * 256 + lo.toNat := by
    rw [h]
    exact pairWord_toNat hi lo
  rw [compute_toNat] at hval
  omega

/-- A sum that folds to `f` is `f` modulo `0xFFFF`, and 0 only with it. -/
theorem fold_spec (x : Nat) : fold x % 0xFFFF = x % 0xFFFF ∧ (fold x = 0 ↔ x = 0) :=
  ⟨fold_mod x, fold_eq_zero_iff x⟩

/-- Settles O44: the zero byte adds 0, as a pad word's high half and as a word's low half. -/
theorem trailingZeroByteIsNeutral : Obligations.TrailingZeroByteIsNeutral :=
  fun B => compute_congr (wordSum_append_zero B)

/-- Settles O46: the fold is 0 only on the sum 0, and a sum of naturals is 0 only if each is. -/
theorem checksumAllOnesIffAllZero : Obligations.ChecksumAllOnesIffAllZero :=
  fun B => (compute_eq_allOnes_iff B).trans (wordSum_eq_zero_iff B)

/-- Settles O47 through the fold's closed form. -/
theorem checksumZeroIffFoldAllOnes : Obligations.ChecksumZeroIffFoldAllOnes := by
  refine ⟨fun B => ⟨compute_eq_zero_iff_mod B, compute_eq_zero_iff B, fun hB => ?allZero⟩, by decide⟩
  case allZero =>
    rw [(compute_eq_allOnes_iff B).2 ((wordSum_eq_zero_iff B).2 hB)]
    decide

/-- Adding to a sum, in the place of two bytes of weight 256 and 1, the checksum of that sum verifies. -/
theorem compute_eq_zero_of_checksum_added {B C : List Byte} {hi lo : Byte} (h : compute B = hi ++ lo)
    (hC : wordSum C = wordSum B + (hi.toNat * 256 + lo.toNat)) : compute C = 0x0000 := by
  have hadd := checksum_bytes_add_fold h
  obtain ⟨hmod, hzero⟩ := fold_spec (wordSum B)
  rw [compute_eq_zero_iff_mod, hC]
  omega

/-- With the checksum's bytes in exchanged weights the sum verifies only if they are equal: the difference of the two
bytes counts 255 times, and `0xFFFF = 255 * 257`. -/
theorem compute_eq_zero_iff_of_checksum_swapped {B C : List Byte} {hi lo : Byte} (h : compute B = hi ++ lo)
    (hC : wordSum C = wordSum B + (hi.toNat + lo.toNat * 256)) : compute C = 0x0000 ↔ hi = lo := by
  have hadd := checksum_bytes_add_fold h
  obtain ⟨hmod, hzero⟩ := fold_spec (wordSum B)
  have hhi := hi.isLt
  have hlo := lo.isLt
  rw [compute_eq_zero_iff_mod, hC, ← BitVec.toNat_inj]
  omega

/-- Settles O48: after an even-length buffer, or with the bytes where they weigh as in the sum, the field verifies;
after an odd-length one its bytes have exchanged weights. -/
theorem selfVerificationCorrected : Obligations.SelfVerificationCorrected := by
  refine ⟨fun B hi lo h => ?_, by decide⟩
  have hadd := checksum_bytes_add_fold h
  have hhi := hi.isLt
  have hlo := lo.isLt
  refine ⟨fun heven => ?even, fun hodd => ?odd, fun hodd => ?equalBytes, fun hodd => ⟨?padded, ?lowFirst⟩⟩
  case even =>
    apply compute_eq_zero_of_checksum_added h
    rw [wordSum_append_of_even B _ heven, wordSum_two]
  case odd =>
    have hsum : wordSum (B ++ [hi, lo]) = wordSum B + (hi.toNat + lo.toNat * 256) := by
      rw [wordSum_append_cons_of_odd B _ hi hodd, wordSum_single, Nat.add_assoc]
    rw [compute_eq_zero_iff_of_checksum_swapped h hsum, ← BitVec.toNat_inj]
    omega
  case equalBytes => omega
  case padded =>
    apply compute_eq_zero_of_checksum_added h
    have heven : (B ++ [0x00]).length % 2 = 0 := by
      rw [List.length_append, List.length_singleton]
      omega
    rw [wordSum_append_of_even _ _ heven, wordSum_append_zero, wordSum_two]
  case lowFirst =>
    apply compute_eq_zero_of_checksum_added h
    rw [wordSum_append_cons_of_odd B _ lo hodd, wordSum_single]
    omega

/-- Settles O49: the field at an even offset is one word of the sum, and two zero bytes add nothing anywhere. -/
theorem frameVerificationCorrected : Obligations.FrameVerificationCorrected := by
  refine ⟨fun before after hi lo h heven => ?field, fun before after => ?removed, by decide⟩
  case field =>
    have hfield (x y : Byte) : wordSum (before ++ [x, y] ++ after) =
        wordSum before + (x.toNat * 256 + y.toNat) + wordSum after := by
      rw [List.append_assoc, wordSum_append_of_even before _ heven, List.cons_append, List.singleton_append,
        wordSum_pair]
      omega
    apply compute_eq_zero_of_checksum_added h
    rw [wordSum_insert_zeros, wordSum_append_of_even before _ heven, hfield]
    omega
  case removed => exact compute_congr (wordSum_insert_zeros before after).symm

/-! SUPPORT. The weight of a byte's place in the word sum (R60). -/

/-- What a byte at index `i` counts: 256 as the high half of a word, 1 as the low half. -/
def byteWeight (i : Nat) : Nat := if i % 2 = 0 then 256 else 1

theorem byteWeight_add_two (i : Nat) : byteWeight (i + 2) = byteWeight i := by
  rw [byteWeight, byteWeight, Nat.add_mod_right]

/-- A byte written over another changes the sum by their difference, times the weight of the place. -/
theorem wordSum_set (B : List Byte) (i : Nat) (b c : Byte) (h : B[i]? = some b) :
    wordSum (B.set i c) + b.toNat * byteWeight i = wordSum B + c.toNat * byteWeight i := by
  induction B using fullWords.induct generalizing i with
  | case1 => simp at h
  | case2 a =>
    obtain ⟨rfl, rfl⟩ : i = 0 ∧ a = b := by
      cases i with
      | zero => simpa using h
      | succ i => simp at h
    rw [List.set_cons_zero, wordSum_single, wordSum_single]
    exact Nat.add_comm _ _
  | case3 hi lo B ih =>
    match i with
    | 0 =>
      obtain rfl : hi = b := by simpa using h
      rw [List.set_cons_zero, wordSum_pair, wordSum_pair, byteWeight, if_pos rfl]
      omega
    | 1 =>
      obtain rfl : lo = b := by simpa using h
      rw [List.set_cons_succ, List.set_cons_zero, wordSum_pair, wordSum_pair, byteWeight, if_neg (by decide)]
      omega
    | i + 2 =>
      have hset := ih i (by simpa using h)
      rw [List.set_cons_succ, List.set_cons_succ, wordSum_pair, wordSum_pair, byteWeight_add_two]
      omega

theorem wordSum_swap {B : List Byte} {i j : Nat} {b c : Byte} (hij : i ≠ j) (hi : B[i]? = some b)
    (hj : B[j]? = some c) :
    wordSum ((B.set i c).set j b) + (b.toNat * byteWeight i + c.toNat * byteWeight j) =
      wordSum B + (c.toNat * byteWeight i + b.toNat * byteWeight j) := by
  have hj' : (B.set i c)[j]? = some c := by rw [List.getElem?_set_ne hij, hj]
  have hfirst := wordSum_set B i b c hi
  have hsecond := wordSum_set (B.set i c) j c b hj'
  omega

/-- Settles O50: two bytes of one weight exchange nothing; of different weights, the sum moves by 255 times their
difference, which `0xFFFF` does not divide. -/
theorem orderSensitivityCorrected : Obligations.OrderSensitivityCorrected := by
  rintro B C i j b c hij hi hj rfl
  have hswap := wordSum_swap hij hi hj
  refine ⟨fun hparity => ?same, fun hparity hne => ?different, ?equal⟩
  case same =>
    have hweight : byteWeight i = byteWeight j := by rw [byteWeight, byteWeight, hparity]
    apply compute_congr
    rw [hweight] at hswap
    omega
  case different =>
    have hb := b.isLt
    have hc := c.isLt
    rw [ne_eq, ← BitVec.toNat_inj] at hne
    rw [ne_eq, compute_eq_compute_iff, fold_eq_fold_iff]
    rcases Nat.mod_two_eq_zero_or_one i with hpar | hpar
    · rw [byteWeight, if_pos hpar, byteWeight, if_neg (by omega)] at hswap
      omega
    · rw [byteWeight, if_neg (by omega), byteWeight, if_pos (by omega)] at hswap
      omega
  case equal =>
    rintro rfl
    obtain ⟨hilt, rfl⟩ := List.getElem?_eq_some_iff.1 hi
    obtain ⟨hjlt, hjb⟩ := List.getElem?_eq_some_iff.1 hj
    rw [List.set_getElem_self, ← hjb, List.set_getElem_self]

/-! SUPPORT. The two bytes of every word exchanged (R61). -/

/-- Modulo `0xFFFF` a factor of 256 exchanges the halves of a word, since `256 * 256` leaves 1. -/
theorem wordSum_swapped_mod {B C : List Byte} (heven : B.length % 2 = 0) (hlen : C.length = B.length)
    (hswap : ∀ i, 2 * i + 1 < B.length → C[2 * i]? = B[2 * i + 1]? ∧ C[2 * i + 1]? = B[2 * i]?) :
    wordSum C % 0xFFFF = 256 * wordSum B % 0xFFFF ∧ (wordSum C = 0 ↔ wordSum B = 0) := by
  induction B using fullWords.induct generalizing C with
  | case1 =>
    obtain rfl := List.length_eq_zero_iff.1 hlen
    simp
  | case2 b => simp at heven
  | case3 hi lo B ih =>
    match C, hlen with
    | x :: y :: C, hlen =>
      simp only [List.length_cons] at heven hlen hswap
      obtain ⟨hx, hy⟩ : x = lo ∧ y = hi := by simpa using hswap 0 (by omega)
      have hrest : ∀ i, 2 * i + 1 < B.length → C[2 * i]? = B[2 * i + 1]? ∧ C[2 * i + 1]? = B[2 * i]? :=
        fun i hi' => hswap (i + 1) (by omega)
      obtain ⟨hmod, hzero⟩ := ih (by omega) (by omega) hrest
      rw [wordSum_pair, wordSum_pair, hx, hy]
      omega

/-- Settles O51: the swapped sum is 256 times the sum modulo `0xFFFF`, and so is its fold. -/
theorem byteSwappedInputSwapsChecksum : Obligations.ByteSwappedInputSwapsChecksum := by
  refine ⟨fun B C hi lo heven hlen hswap h => ?_, by decide⟩
  obtain ⟨hmod, hzero⟩ := wordSum_swapped_mod heven hlen hswap
  have hadd := checksum_bytes_add_fold h
  obtain ⟨hmodB, hzeroB⟩ := fold_spec (wordSum B)
  obtain ⟨hmodC, hzeroC⟩ := fold_spec (wordSum C)
  have hleC := fold_le (wordSum C)
  have hhi := hi.isLt
  have hlo := lo.isLt
  have hswapped : (lo ++ hi : Word).toNat = lo.toNat * 256 + hi.toNat := pairWord_toNat lo hi
  rw [← BitVec.toNat_inj, compute_toNat, hswapped]
  omega

/-- The fold of a sum is the fold of the folds. -/
theorem fold_add_fold (x y : Nat) : fold (fold x + fold y) = fold (x + y) := by
  obtain ⟨hmodx, hzerox⟩ := fold_spec x
  obtain ⟨hmody, hzeroy⟩ := fold_spec y
  rw [fold_eq_fold_iff]
  omega

/-- Settles O52; `[1]` followed by `[1]` is the odd-length piece after which it fails. -/
theorem evenPiecesConcatenate : Obligations.EvenPiecesConcatenate := by
  refine ⟨fun A B heven => ?even, [0x01], [0x01], rfl, by decide⟩
  case even =>
    rw [wordSum_append_of_even A B heven, fold_add_fold]
    exact ⟨rfl, rfl⟩

end Sys2Proof.Machine

namespace Sys2Proof.Machine

/-! SUPPORT. A host's actions in sequence (20_memory.md R31, R33). -/

theorem andThen_assoc {α β γ : Type} (o : Host.Outcome α Fault Refusal) (f : α → Host.Outcome β Fault Refusal)
    (g : β → Host.Outcome γ Fault Refusal) : andThen (andThen o f) g = andThen o fun a => andThen (f a) g := by
  cases o <;> rfl

theorem andThen_next_pair {α β : Type} (o : Host.Outcome (α × β) Fault Refusal) :
    (andThen o fun u => .next (u.1, u.2)) = o := by
  cases o <;> rfl

theorem hostStep_of_stepInput {a : HostAction} {e : StepInput} (h : a.stepInput = some e) (s : State) :
    hostStep a s = applyInput e s := by
  rw [hostStep, h]
  exact step_offer e s

/-- A host read is no step (R82, R83). -/
theorem hostStep_of_no_stepInput {a : HostAction} (h : a.stepInput = none) (s : State) : hostStep a s = .next s := by
  rw [hostStep, h]

theorem hostStep_total (a : HostAction) (s : State) : ∃ t, hostStep a s = .next t := by
  cases h : a.stepInput with
  | none => exact ⟨s, hostStep_of_no_stepInput h s⟩
  | some e =>
    rw [hostStep_of_stepInput h]
    exact applyInput_total e s

@[simp] theorem hostRun_nil (s : State) : hostRun [] s = .next (s, []) := rfl

theorem hostRun_cons (a : HostAction) (rest : List HostAction) (s : State) :
    hostRun (a :: rest) s =
      andThen (hostStep a s) fun t =>
        andThen (hostRun rest t) fun u => .next (u.1, (a.readValue s).toList ++ u.2) := rfl

theorem hostRun_append (as bs : List HostAction) (s : State) :
    hostRun (as ++ bs) s = andThen (hostRun as s) fun u =>
      andThen (hostRun bs u.1) fun v => .next (v.1, u.2 ++ v.2) := by
  induction as generalizing s with
  | nil =>
    rw [hostRun_nil, andThen_next]
    exact (andThen_next_pair _).symm
  | cons a as ih =>
    rw [List.cons_append, hostRun_cons, hostRun_cons, andThen_assoc]
    congr 1
    funext t
    rw [ih]
    simp only [andThen_assoc, andThen_next, List.append_assoc]

/-- Settles O53, by induction on the first actions; the two reads at the end see the state they leave. -/
theorem hostActionsAreSequential : Obligations.HostActionsAreSequential := by
  refine ⟨hostRun_append, fun as s t vs h => ?reads⟩
  case reads =>
    rw [hostRun_append, h]
    rfl

theorem readValue_of_stepInput {a : HostAction} (h : a.stepInput.isSome = true) (s : State) : a.readValue s = none := by
  cases a with
  | write w => rfl
  | reset c => rfl
  | rdResult => simp [HostAction.stepInput] at h
  | rdStatus => simp [HostAction.stepInput] at h

theorem hostRun_cons_of_next {a : HostAction} {rest : List HostAction} {s t u : State} {vs : List Word}
    (hstep : hostStep a s = .next t) (hrun : hostRun rest t = .next (u, vs)) :
    hostRun (a :: rest) s = .next (u, (a.readValue s).toList ++ vs) := by
  rw [hostRun_cons, hstep, andThen_next, hrun, andThen_next]

/-- Settles O54, by induction on the actions: a read takes the state on as it is. -/
theorem hostReadsChangeNothing : Obligations.HostReadsChangeNothing := by
  intro as
  induction as with
  | nil => exact fun s => ⟨s, [], hostRun_nil s, hostRun_nil s⟩
  | cons a as ih =>
    intro s
    obtain ⟨t, ht⟩ := hostStep_total a s
    obtain ⟨u, vs, hrun, hfiltered⟩ := ih t
    refine ⟨u, _, hostRun_cons_of_next ht hrun, ?_⟩
    by_cases hstep : a.stepInput.isSome = true
    · rw [List.filter_cons, if_pos hstep, hostRun_cons_of_next ht hfiltered, readValue_of_stepInput hstep]
      rfl
    · have hread := hostStep_of_no_stepInput (Option.not_isSome_iff_eq_none.1 hstep) s
      obtain rfl := next_state_unique hread ht
      rw [List.filter_cons, if_neg hstep]
      exact hfiltered

/-! SUPPORT. What acting on one of a platform's engines does (60_exceptions.md R99). -/

theorem act_of_next {p : Platform} {k : Nat} {s t : State} {a : HostAction} (hs : p.engines[k]? = some s)
    (ht : hostStep a s = .next t) : p.act k a = some ⟨p.engines.set k t⟩ := by
  simp [Platform.act, hs, ht]

theorem act_of_absent {p : Platform} {k : Nat} (hs : p.engines[k]? = none) (a : HostAction) : p.act k a = none := by
  simp [Platform.act, hs]

/-- An action that takes effect is the step of an engine that is there. -/
theorem act_cases {p q : Platform} {k : Nat} {a : HostAction} (h : p.act k a = some q) :
    ∃ s t, p.engines[k]? = some s ∧ hostStep a s = .next t ∧ q = ⟨p.engines.set k t⟩ := by
  cases hs : p.engines[k]? with
  | none => simp [act_of_absent hs] at h
  | some s =>
    obtain ⟨t, ht⟩ := hostStep_total a s
    exact ⟨s, t, rfl, ht, Option.some.inj (h.symm.trans (act_of_next hs ht))⟩

theorem act_engines_ne {p q : Platform} {j k : Nat} {a : HostAction} (h : p.act k a = some q) (hjk : j ≠ k) :
    q.engines[j]? = p.engines[j]? := by
  obtain ⟨s, t, -, -, rfl⟩ := act_cases h
  exact List.getElem?_set_ne hjk.symm

/-- The first action leaves the other place as it was, so an engine absent there is absent in either order. -/
theorem act_bind_of_absent {p : Platform} {j k : Nat} (hjk : j ≠ k) (hk : p.engines[k]? = none)
    (a b : HostAction) : (p.act j a).bind (Platform.act k b) = none := by
  cases hact : p.act j a with
  | none => rfl
  | some q => exact act_of_absent ((act_engines_ne hact hjk.symm).trans hk) b

theorem act_bind_act {p : Platform} {j k : Nat} {s s' t t' : State} {a b : HostAction} (hjk : j ≠ k)
    (hs : p.engines[j]? = some s) (hs' : p.engines[k]? = some s') (ht : hostStep a s = .next t)
    (ht' : hostStep b s' = .next t') :
    (p.act j a).bind (Platform.act k b) = some ⟨(p.engines.set j t).set k t'⟩ := by
  have hk : (p.engines.set j t)[k]? = some s' := (List.getElem?_set_ne hjk).trans hs'
  rw [act_of_next hs ht]
  exact act_of_next hk ht'

/-- Settles O56: an action writes at its own place of the list, and writes at two places commute. -/
theorem instancesAreIndependent : Obligations.InstancesAreIndependent := by
  refine ⟨fun k a p q h => ?frame, fun j k a b p hjk => ?commute⟩
  case frame =>
    obtain ⟨s, t, hs, ht, rfl⟩ := act_cases h
    obtain ⟨hk, -⟩ := List.getElem?_eq_some_iff.1 hs
    exact ⟨List.length_set, fun j hj => act_engines_ne h hj, s, t, hs, ht, List.getElem?_set_self hk⟩
  case commute =>
    cases hs : p.engines[j]? with
    | none => rw [act_bind_of_absent hjk.symm hs, act_of_absent hs, Option.bind_none]
    | some s =>
      cases hs' : p.engines[k]? with
      | none => rw [act_bind_of_absent hjk hs', act_of_absent hs', Option.bind_none]
      | some s' =>
        obtain ⟨t, ht⟩ := hostStep_total a s
        obtain ⟨t', ht'⟩ := hostStep_total b s'
        rw [act_bind_act hjk hs hs' ht ht', act_bind_act hjk.symm hs' hs ht' ht, List.set_comm _ _ hjk]

/-- Settles O57: the platform after reset is a list of `N_ENGINES` copies of the reset state. -/
theorem platformResetIsUniform : Obligations.PlatformResetIsUniform := by
  refine ⟨List.length_replicate, Nat.succ_pos _, fun k hk => ?_⟩
  exact List.getElem?_replicate_of_lt hk

/-! SUPPORT. What a host reads (10_state.md R14, R17). -/

/-- Settles O55: the reads look at three elements, which the states share. -/
theorem hiddenStateIsNotObserved : Obligations.HiddenStateIsNotObserved := by
  intro s t hresult hvalid hill
  refine ⟨hresult, ?_⟩
  rw [readStatus, readStatus, hvalid, hill]

theorem statusWord_getLsbD_zero : ∀ ill resValid : Bool, (statusWord ill resValid).getLsbD 0 = resValid := by decide

/-- The two flags fill the two lowest bits, so the value is below 4. -/
theorem statusWord_toNat_lt : ∀ ill resValid : Bool, (statusWord ill resValid).toNat < 2 ^ 2 := by decide

/-- Settles O23: the flags' own bits, the bits above a value below 4, and the reads after reset. -/
theorem statusWordLayout : Obligations.StatusWordLayout := by
  refine ⟨fun s => ⟨statusWord_getLsbD_zero _ _, readStatus_getLsbD_one s, fun i hi => ?high⟩, by decide⟩
  case high =>
    apply Nat.testBit_lt_two_pow
    exact Nat.lt_of_lt_of_le (statusWord_toNat_lt _ _) (Nat.pow_le_pow_right (by decide) hi)

/-! SUPPORT. Single steps and commands (43_engine_commands.md R76 to R80). -/

/-- Settles O9. -/
theorem stepRunsTheDecodedCommand : Obligations.StepRunsTheDecodedCommand :=
  fun _ _ _ _ hin hd => (step_of_input hin).trans (acceptCommand_of_command hd _)

/-- Settles O10. -/
theorem noInputHoldsAllState : Obligations.NoInputHoldsAllState :=
  fun _ h => step_idle h

/-- Settles O15, one case per command, from the command's update of the state. -/
theorem commandFrames : Obligations.CommandFrames := by
  refine ⟨fun s t h => ?start, fun d s t h => ?byte, fun s t h => ?finish⟩
  case start =>
    obtain rfl := next_state_unique h (exec_start_eq s)
    exact ⟨rfl, rfl⟩
  case byte =>
    obtain rfl := next_state_unique h (exec_byte d s)
    refine ⟨appendByte_result d s, appendByte_ill d s, appendByte_input d s, fun hv => ?_⟩
    simp [hv]
  case finish =>
    obtain rfl := next_state_unique h (exec_finish_eq s)
    exact ⟨rfl, rfl⟩

/-- Settles O25: after reset the hidden state is empty, and `FINISH` of an empty buffer writes `0xFFFF` again. -/
theorem finishAfterResetKeepsResult : Obligations.FinishAfterResetKeepsResult := by
  intro s t u c ht hu
  obtain rfl := next_state_unique ht (step_offer_reset c s)
  obtain rfl := next_state_unique hu (exec_finish_of_hiddenIsReset ⟨rfl, rfl, rfl⟩)
  exact ⟨rfl, rfl, rfl, rfl⟩

/-- Settles O27: nothing is pending after reset, and the abstract machine starts with the empty buffer. -/
theorem invariantsHoldAtReset : Obligations.InvariantsHoldAtReset :=
  ⟨fun _ => rfl, (hidesBuffer_nil_iff _).2 ⟨rfl, rfl, rfl⟩, rfl, rfl, rfl⟩

end Sys2Proof.Machine
